-- ==== Sys2Proof/Word.lean ====
section
/-!
DEFINITION. The widths of the engine (00_scope.md R12): bus levels, bytes, register ids and command words.
-/

namespace Sys2Proof

/-- The level of one bus line: `true` is 1 (high), `false` is 0 (low). R12: "each bus line carries 1 bit". -/
abbrev Level := Bool

/-- A transmitted unit, a data byte, a glyph row or an index (R12: 8 bits, unsigned). -/
abbrev Byte := BitVec 8

/-- A MAX7219 register id, the field `A` of a command word (R12, R61: 4 bits). -/
abbrev RegId := BitVec 4

/-- A command word (R12, R60: 16 bits). -/
abbrev CommandWord := BitVec 16

end Sys2Proof
end

