-- ==== Sys2Proof/Config.lean ====
section
/-!
DEFINITION. What a build of the engine fixes (00_scope.md R5 to R10, 10_state.md R25): the values the spec gives,
the open parameters as free constants without a body, and the record of one build.
-/

namespace Sys2Proof

/-- The glyph selection mode (R5), a build-time choice among three tables. -/
inductive GlyphMode where
  | digits
  | upper
  | lower
deriving DecidableEq, Repr, Inhabited

/-- R6: the glyph count `N` of the table a mode selects. -/
def GlyphMode.glyphCount : GlyphMode → Nat
  | .digits => 10
  | .upper => 23
  | .lower => 23

namespace Config

/-- R8: the duration in milliseconds of the wait every TICK requests. -/
def tickMs : Nat := 1000

/-- R10 `DECODE_VALUE`: no decode on any digit. PRESUMED by the spec itself (D12, G2); log 7. -/
def decodeValue : Byte := 0x00#8

/-- R10 `SCANLIMIT_VALUE`: scan digits 0 to 7. PRESUMED by the spec itself (D12, G2); log 7. -/
def scanLimitValue : Byte := 0x07#8

/-- R10 `DISPTEST_VALUE`: normal operation. PRESUMED by the spec itself (D12, G2); log 7. -/
def dispTestValue : Byte := 0x00#8

/-- R10 `SHUTDOWN_EXIT_VALUE`: "`write_register(0x0C, 0x01)` (exit shutdown)". -/
def shutdownExitValue : Byte := 0x01#8

/-- The mode of the build that `State.reset` starts (R5). A free value: log 3. -/
opaque mode : GlyphMode

/-- `glyphRow m i r` is row `r` of glyph `i` in the table of mode `m` (R7). A free value: log 4. -/
opaque glyphRow : GlyphMode → Nat → Nat → Byte

/-- The data byte INIT writes to the intensity register (R9). A free value: log 5. -/
opaque intensity : Byte

/-- The level of CLK at reset (R33). A free value: log 6. -/
opaque resetClk : Level

/-- The level of DIN at reset (R33). A free value: log 6. -/
opaque resetDin : Level

end Config

/-- The constants of one build (10_state.md R25). "No command writes them and a model takes them as parameters":
State carries the record so that every claim ranges over every build, and no step writes it (log 1). -/
structure Build where
  /-- `N` (R6). -/
  glyphCount : Nat
  /-- `GLYPH_ROM` (R7) as the cells of its linear layout (R41). -/
  rom : List Host.Cell
  /-- `INTENSITY` (R9). -/
  intensity : Byte
  /-- `RESET_CLK` (R33). -/
  resetClk : Level
  /-- `RESET_DIN` (R33). -/
  resetDin : Level
deriving DecidableEq, Repr

/-- The cells of a table of `n` glyphs in the layout of 20_memory.md R41: glyph `i`, row `r` at address `8*i + r`. -/
def romOfTable (n : Nat) (row : Nat → Nat → Byte) : List Host.Cell :=
  (List.range (8 * n)).map fun addr => (addr, row (addr / 8) (addr % 8))

/-- The build a mode selects (R5, R6, R7; R103: the modes differ only in the table and its length). -/
def Build.ofMode (m : GlyphMode) : Build where
  glyphCount := m.glyphCount
  rom := romOfTable m.glyphCount (Config.glyphRow m)
  intensity := Config.intensity
  resetClk := Config.resetClk
  resetDin := Config.resetDin

/-- The build of the machine that `State.reset` starts. -/
def Config.build : Build := Build.ofMode Config.mode

/-- A command stream `CMD` (R30, R79): the words of `head`, then the words of `loop` over and over.
With an empty `loop` the stream is finite (R142). -/
structure CommandStream where
  head : List CommandWord
  loop : List CommandWord
deriving DecidableEq, Repr

/-- 70_reset_and_hazards.md R131: "CMD = 0x5000, 0x8000, 0x8000, 0x8000, ...", INIT and then TICK forever. -/
def Config.bootStream : CommandStream where
  head := [0x5000#16]
  loop := [0x8000#16]

end Sys2Proof
end

