-- ==== Sys2Proof/Syntax.lean ====
section
/-!
DEFINITION. The command set: one constructor per row of spec/opcode_table.json (30_encoding.md R64).
-/

namespace Sys2Proof

/-- The engine's commands (R64). Operand widths are in the types, so every term is a well-formed command:
`V` is any byte, `A` any 4-bit id (R74 accepts all sixteen) and RENDER carries exactly eight row bytes (R62). -/
inductive Instr where
  /-- SELECT (R80): drive chip-select low. -/
  | select
  /-- DESELECT (R81): drive chip-select high. -/
  | deselect
  /-- TXBYTE `V` (R82): transmit one byte, most significant bit first. -/
  | txbyte (v : Byte)
  /-- WRREG `A`, `V` (R90): write one device register in one frame. -/
  | wrreg (a : RegId) (v : Byte)
  /-- INIT (R91): the thirteen-frame initialisation. -/
  | init
  /-- CLEAR (R93): write zero to the eight row registers. -/
  | clear
  /-- RENDER `rows[0..7]` (R94): write eight row bytes. -/
  | render (rows : Vector Byte 8)
  /-- TICK (R101): render the cursor's glyph, wait, advance. -/
  | tick
  /-- SHOW `V` (R102): render the glyph at a supplied index. -/
  | showGlyph (v : Byte)
deriving DecidableEq, Repr

end Sys2Proof
end

