-- ==== Sys2Proof/WellFormed.lean ====
section
/-!
DEFINITION. Well-formedness: the operand ranges of a written command (30_encoding.md R68) and the parameter ranges
of a build (00_scope.md R6, 20_memory.md R41). A term of `Instr` is well-formed by its types.
-/

namespace Sys2Proof

/-- One line of assembler source (30_encoding.md R68) with its numbers as written: a command, or the directive
`.word`, which "is not a command". -/
inductive AsmLine where
  | sel
  | desel
  | tx (byte : Nat)
  | wr (reg byte : Nat)
  | init
  | clr
  | render (bytes : List Nat)
  | tick
  | showGlyph (index : Nat)
  | word (w : Nat)
deriving DecidableEq, Repr

/-- R68: "A `<byte>` must be in 0 to 255". -/
def byteInRange (n : Nat) : Bool := n ≤ 255

/-- R68: "and a `<reg>` in 0 to 15". -/
def regInRange (n : Nat) : Bool := n ≤ 15

/-- R68: `.word` "places a raw 16-bit word in the stream". -/
def wordInRange (n : Nat) : Bool := n ≤ 0xFFFF

/-- A line whose operands an assembler accepts; it "rejects a larger value. It does not truncate it." (R68). -/
def AsmLine.wf : AsmLine → Bool
  | .sel => true
  | .desel => true
  | .tx b => byteInRange b
  | .wr r b => regInRange r && byteInRange b
  | .init => true
  | .clr => true
  | .render bs => bs.length == 8 && bs.all byteInRange
  | .tick => true
  | .showGlyph i => byteInRange i
  | .word w => wordInRange w

/-- The canonical form of the glyph ROM of `n` glyphs: it lists exactly the addresses `0, 1, ..., 8*n - 1`,
in rising order (R41). An unlisted address does not exist (R43). -/
abbrev Memory.wf (n : Nat) (rom : List Host.Cell) : Prop := rom.map Prod.fst = List.range (8 * n)

/-- A build within the parameter ranges of the spec: "`1 <= N <= 255`" (R6) and a ROM of the layout of R41. -/
abbrev Build.wf (b : Build) : Prop := 1 ≤ b.glyphCount ∧ b.glyphCount ≤ 255 ∧ Memory.wf b.glyphCount b.rom

end Sys2Proof
end

