-- ==== Sys2Proof/Decode.lean ====
section
/-!
DEFINITION. The decoder (30_encoding.md R61 to R67), written from the opcode map R64, and after it the encoder.
-/

namespace Sys2Proof

/-! ### Fields and word layout -/

/-- R61: `OP = cw[15:12]`. -/
def opField (cw : CommandWord) : BitVec 4 := cw.extractLsb' 12 4

/-- R61: `A = cw[11:8]`. -/
def aField (cw : CommandWord) : RegId := cw.extractLsb' 8 4

/-- R61: `V = cw[7:0]`. -/
def vField (cw : CommandWord) : Byte := cw.extractLsb' 0 8

/-- The more significant byte of a word (R62). -/
def highByte (w : CommandWord) : Byte := w.extractLsb' 8 8

/-- The less significant byte of a word (R62). -/
def lowByte (w : CommandWord) : Byte := w.extractLsb' 0 8

/-- R62: "Where a byte stream must be formed, each word is stored high byte first (big-endian)." -/
def bytesOfWords (ws : List CommandWord) : List Byte := ws.flatMap fun w => [highByte w, lowByte w]

/-- The words of a byte stream, high byte first (R62). A last single byte makes no word. -/
def wordsOfBytes : List Byte → List CommandWord
  | hi :: lo :: rest => (hi ++ lo) :: wordsOfBytes rest
  | [_] => []
  | [] => []

/-! ### The opcode map -/

/-- The operation a row of R64 stands for. -/
inductive Operation where
  | select | deselect | txbyte | wrreg | init | clear | render | tick | showGlyph
deriving DecidableEq, Repr

/-- One row of the opcode map R64. -/
structure OpcodeRow where
  op : Operation
  /-- the column `match` -/
  pattern : CommandWord
  mask : CommandWord
  /-- the command's length in words (R63) -/
  words : Nat
deriving DecidableEq, Repr

/-- The opcode map, row by row as R64 prints it. -/
def opcodeMap : List OpcodeRow :=
  [ ⟨.select,    0x1000#16, 0xFFFF#16, 1⟩,
    ⟨.deselect,  0x2000#16, 0xFFFF#16, 1⟩,
    ⟨.txbyte,    0x3000#16, 0xFF00#16, 1⟩,
    ⟨.wrreg,     0x4000#16, 0xF000#16, 1⟩,
    ⟨.init,      0x5000#16, 0xFFFF#16, 1⟩,
    ⟨.clear,     0x6000#16, 0xFFFF#16, 1⟩,
    ⟨.render,    0x7000#16, 0xFFFF#16, 5⟩,
    ⟨.tick,      0x8000#16, 0xFFFF#16, 1⟩,
    ⟨.showGlyph, 0x9000#16, 0xFF00#16, 1⟩ ]

/-- R64: "A word matches a row when `(cw AND mask) = match`." -/
def OpcodeRow.accepts (row : OpcodeRow) (cw : CommandWord) : Bool := cw &&& row.mask == row.pattern

/-- The row a word matches, if any (R64). -/
def findRow (cw : CommandWord) : Option OpcodeRow := opcodeMap.find? (·.accepts cw)

/-- R63: a command's length in words, from its first word alone; a reserved word has none. -/
def commandLength (cw : CommandWord) : Option Nat := (findRow cw).map (·.words)

/-- The longest command in words (R60: RENDER, "five words in all"). -/
def longestCommand : Nat := 5

/-! ### Decoding -/

/-- Why a list of words or bytes holds no command at its start. -/
inductive DecodeError where
  /-- there is no first word -/
  | empty
  /-- the first word matches no row (R66) -/
  | reserved (cw : CommandWord)
  /-- the words end inside RENDER's extension words (R79) -/
  | truncated
  /-- a byte stream that is not a whole number of 16-bit words (R62; log 18) -/
  | halfWord
deriving DecidableEq, Repr

/-- R62: the eight row bytes of the extension words, `rows[2k] = e(k+1)[15:8]` and `rows[2k+1] = e(k+1)[7:0]`. -/
def rowsOfExtension (e1 e2 e3 e4 : CommandWord) : Vector Byte 8 :=
  #v[highByte e1, lowByte e1, highByte e2, lowByte e2, highByte e3, lowByte e3, highByte e4, lowByte e4]

/-- Operand assembly (R65) for the operation of the first word `cw`, with the words `ext` that follow it. -/
def readOperands (op : Operation) (cw : CommandWord) (ext : List CommandWord) :
    Except DecodeError (Instr × List CommandWord) :=
  match op with
  | .select => .ok (.select, ext)
  | .deselect => .ok (.deselect, ext)
  | .txbyte => .ok (.txbyte (vField cw), ext)
  | .wrreg => .ok (.wrreg (aField cw) (vField cw), ext)
  | .init => .ok (.init, ext)
  | .clear => .ok (.clear, ext)
  | .render =>
    match ext with
    | e1 :: e2 :: e3 :: e4 :: rest => .ok (.render (rowsOfExtension e1 e2 e3 e4), rest)
    | _ => .error .truncated
  | .tick => .ok (.tick, ext)
  | .showGlyph => .ok (.showGlyph (vField cw), ext)

/-- The decoder: the command at the start of a list of words and the words after it. The checks come in the order
of 60_exceptions.md R114, `Reserved` and then `Truncated`. It reads no engine state (R67). -/
def decode : List CommandWord → Except DecodeError (Instr × List CommandWord)
  | [] => .error .empty
  | cw :: ext =>
    match findRow cw with
    | none => .error (.reserved cw)
    | some row => readOperands row.op cw ext

/-- The decoder on a byte stream (R62: high byte first). -/
def decodeBytes (bs : List Byte) : Except DecodeError (Instr × List CommandWord) :=
  if bs.length % 2 = 1 then .error .halfWord else decode (wordsOfBytes bs)

/-- The words of a row whose bits are `w`, numbered as spec/opcode_table.json numbers them: bit 0 is the least
significant bit of the first word, and the words above `nbits` are zero, up to the longest command. -/
def tableWords (nbits w : Nat) : List CommandWord :=
  (List.range longestCommand).map fun k => BitVec.ofNat 16 ((w % 2 ^ nbits) >>> (16 * k))

/-- The command the decoder reads from the bits `w` of an opcode-table row, laid out as bytes (R62). -/
def decodeTableWord (nbits w : Nat) : Option Instr :=
  match decodeBytes (bytesOfWords (tableWords nbits w)) with
  | .ok (i, _) => some i
  | .error _ => none

/-! ### Encoding -/

/-- R61: a command word from its three fields. -/
def commandWord (op : BitVec 4) (a : RegId) (v : Byte) : CommandWord := op ++ a ++ v

/-- The words of a command, from the OP column of R64, the fields of R61 and the extension words of R62. -/
def encode : Instr → List CommandWord
  | .select => [commandWord 0x1 0 0]
  | .deselect => [commandWord 0x2 0 0]
  | .txbyte v => [commandWord 0x3 0 v]
  | .wrreg a v => [commandWord 0x4 a v]
  | .init => [commandWord 0x5 0 0]
  | .clear => [commandWord 0x6 0 0]
  | .render rows =>
    [commandWord 0x7 0 0, rows[0] ++ rows[1], rows[2] ++ rows[3], rows[4] ++ rows[5], rows[6] ++ rows[7]]
  | .tick => [commandWord 0x8 0 0]
  | .showGlyph v => [commandWord 0x9 0 v]

end Sys2Proof
end

