-- ==== Sys2Proof/Machine/State.lean ====
section
/-!
DEFINITION. The engine's state (10_state.md R20), its events (R32), the reasons a step can stop, and the state
after reset (R33).
-/

namespace Sys2Proof.Machine

/-- The three output lines (20_memory.md R40). -/
inductive Line where
  | cs
  | clk
  | din
deriving DecidableEq, Repr

/-- An event of `TRACE` (R32). -/
inductive Event where
  /-- `Pin(L, b)`: line `L` was driven to level `b`. -/
  | pin (l : Line) (b : Level)
  /-- `Wait(ms)`: the timing service was asked to wait. -/
  | wait (ms : Nat)
deriving DecidableEq, Repr

/-- `PHASE` (R20): whether the engine is inside a TICK's wait. -/
inductive Phase where
  | ready
  | waiting
deriving DecidableEq, Repr

/-- The three refusals of the model and what each records (60_exceptions.md R110). -/
inductive RefusalCause where
  /-- the word is reserved or breaks a must-be-zero field (R66) -/
  | reserved (cw : CommandWord) (cpos : Nat)
  /-- a finite stream ends inside RENDER's extension words (R79) -/
  | truncated (cpos : Nat)
  /-- a glyph ROM read at an address that does not exist (R43) -/
  | romRange (addr : Nat)
deriving DecidableEq, Repr

/-- What the timing service does about one wait (R118). The model's own datum, not the spec's: log 8. -/
inductive WaitReply where
  /-- it returns at its turn number `turns`, counted from 0 -/
  | after (turns : Nat)
  /-- it never returns: "a hang the model admits" (R118) -/
  | never
deriving DecidableEq, Repr

/-- The engine's state: the eight elements of R20, then the build's constants and the model's own input field. -/
structure State where
  /-- `CS`, the chip-select level (R21); 0 selects the device. -/
  cs : Level
  /-- `CLK`, the clock level (R22). -/
  clk : Level
  /-- `DIN`, the data level (R23). -/
  din : Level
  /-- `CURSOR`, the index of the next glyph to render (R28). -/
  cursor : Byte
  /-- `PHASE` (R20, R31). -/
  phase : Phase
  /-- `CPOS`, the position in the command stream in words (R30). -/
  cpos : Nat
  /-- `TRACE`, every event so far in issue order (R32). -/
  trace : List Event
  /-- `REFUSED` (R20) with the record of R110: `none` is false, `some cause` is true. Log 9. -/
  refused : Option RefusalCause
  /-- `CMD`, the command stream (R30, R79), a constant of the build (R25). Log 2. -/
  cmd : CommandStream
  /-- The constants of the build (R25). Log 1. -/
  build : Build
  /-- What the timing service does about the coming waits, the current one first; an empty list means that it
  returns at its first turn. The model's own field: log 8. -/
  waitReplies : List WaitReply
deriving DecidableEq, Repr

/-- Why a step cannot be taken although nothing was refused. Raised by `step` alone. -/
inductive Fault where
  /-- `CPOS = length(CMD)`: the finite stream has ended normally (R142). Safe: the machine stops where R79 gives no
  step. Log 10. -/
  | endOfRun
  /-- `CPOS > length(CMD)`: R79 gives no step and no run reaches this. Safe. Log 10. -/
  | cposOutsideStream
deriving DecidableEq, Repr

/-- Why the machine has no meaning for going on. -/
inductive Refusal where
  /-- An instruction without a meaning in this model. No arm of `exec` raises it. Safe. -/
  | notModelled (mnemonic : String)
  /-- `REFUSED` is true: "the engine takes no further step and nothing clears it" (R111). Raised by `step`. Safe. -/
  | stopped (cause : RefusalCause)
deriving DecidableEq, Repr

/-- R33, R130: the state after reset of the engine of build `b` with the command stream `cmd`; `replies` is what
the timing service will do (log 8). -/
def State.resetWith (b : Build) (cmd : CommandStream) (replies : List WaitReply) : State where
  cs := true
  clk := b.resetClk
  din := b.resetDin
  cursor := 0#8
  phase := .ready
  cpos := 0
  trace := []
  refused := none
  cmd := cmd
  build := b
  waitReplies := replies

/-- The machine right after reset (R33) with the product's boot stream (R131). -/
def State.reset : State := State.resetWith Config.build Config.bootStream []

end Sys2Proof.Machine
end

