-- ==== Sys2Proof/Machine/Flags.lean ====
section
/-!
DEFINITION. The engine has "no flags, no condition codes, no predicates, no status bits and no error bits"
(10_state.md R29). The one mark is the model's own: `REFUSED`.
-/

namespace Sys2Proof.Machine

/-- `REFUSED` as the Boolean of R20. -/
def State.isRefused (s : State) : Bool := s.refused.isSome

end Sys2Proof.Machine
end

