-- ==== Sys2Proof/Machine/Operands.lean ====
section
/-!
DEFINITION. The operand forms of the commands: the bits of a byte in wire order, the address byte of a register id,
the addresses of the device registers, and the clamped glyph index.
-/

namespace Sys2Proof.Machine

/-- The bits of a byte in wire order, bit 7 first (20_memory.md R45, 40_link.md R82). -/
def msbFirst (v : Byte) : List Level := [7, 6, 5, 4, 3, 2, 1, 0].map fun i => v.getLsbD i

/-- 30_encoding.md R72: the 4-bit register id goes on the wire as the byte `zext_8(A) = 0000:A`. -/
def addressByte (a : RegId) : Byte := a.zeroExtend 8

/-- 42_sequencer.md R100: `clamp(v) = (v < N) ? v : 0`, for an 8-bit unsigned `v`. -/
def clampIndex (b : Build) (v : Byte) : Nat := if v.toNat < b.glyphCount then v.toNat else 0

/-! The register addresses of 30_encoding.md R71. -/

def regDecodeMode : Byte := 0x09#8
def regIntensity : Byte := 0x0A#8
def regScanLimit : Byte := 0x0B#8
def regShutdown : Byte := 0x0C#8
def regDisplayTest : Byte := 0x0F#8

/-- R71: glyph row `r` goes to the row register at address `r + 1`. -/
def regRow (r : Nat) : Byte := BitVec.ofNat 8 (r + 1)

end Sys2Proof.Machine
end

