-- ==== Sys2Proof/Machine/Ops.lean ====
section
/-!
DEFINITION. The operations every command shares: pin writes, bytes and frames on the wire, glyph ROM reads, the wait
and its return, taking a refusal, and the command cycle's fetch and advance.
-/

namespace Sys2Proof.Machine

/-! ### Pins and the trace -/

/-- The level a line takes (00_scope.md R14: `L <- b`). -/
def State.setLine (s : State) (l : Line) (b : Level) : State :=
  match l with
  | .cs => { s with cs := b }
  | .clk => { s with clk := b }
  | .din => { s with din := b }

/-- R32: `TRACE` is only ever extended at its end. -/
def State.record (s : State) (e : Event) : State := { s with trace := s.trace ++ [e] }

/-- `PinWrite(L, b)` (R14, R46): the line takes the level and exactly one event is appended, level change or not. -/
def pinWrite (l : Line) (b : Level) (s : State) : State := (s.setLine l b).record (.pin l b)

/-- One bit of a TXBYTE (R82, R135): CLK low, DIN set, CLK high, in this order. -/
def txBit (b : Level) (s : State) : State := pinWrite .clk true (pinWrite .din b (pinWrite .clk false s))

/-- `TX(v)` (R82; 41_controller.md): the eight bits of a byte, bit 7 first. -/
def txByte (v : Byte) (s : State) : State := (msbFirst v).foldl (fun t b => txBit b t) s

/-- `frame(a, d)` (41_controller.md): select, address byte, data byte, deselect. -/
def sendFrame (a d : Byte) (s : State) : State :=
  pinWrite .cs true (txByte d (txByte a (pinWrite .cs false s)))

/-- Frames sent one after another, each an (address, data) pair (R90 to R94). -/
def sendFrames (fs : List (Byte × Byte)) (s : State) : State := fs.foldl (fun t f => sendFrame f.1 f.2 t) s

/-- The frames of row bytes in ascending row order, row `r` to register `r + 1` (R94). -/
def rowFrames (rows : List Byte) : List (Byte × Byte) := rows.zipIdx.map fun p => (regRow p.2, p.1)

/-! ### The glyph ROM -/

/-- The byte a ROM lists at an address. -/
def Memory.read (rom : List Host.Cell) (addr : Nat) : Option Byte := rom.lookup addr

/-- `MemRead(addr, 1)` (R14, R41). An address `>= 8*N`, or one the ROM does not list, does not exist (R43). -/
def romRead (addr : Nat) (s : State) : Option Byte :=
  if addr < 8 * s.build.glyphCount then Memory.read s.build.rom addr else none

/-- The bytes of the listed rows of glyph `i`, or the refusal of the first address that does not exist. -/
def readRows (s : State) (i : Nat) : List Nat → Except RefusalCause (List Byte)
  | [] => .ok []
  | r :: rs =>
    match romRead (8 * i + r) s with
    | none => .error (.romRange (8 * i + r))
    | some b =>
      match readRows s i rs with
      | .ok bs => .ok (b :: bs)
      | .error c => .error c

/-- `G[i]`, the eight row bytes of glyph `i` (R41). -/
def readGlyph (s : State) (i : Nat) : Except RefusalCause (List Byte) := readRows s i (List.range 8)

/-- `render_glyph(i)` (42_sequencer.md): a frame `(r + 1, G[i][r])` for each row. The ROM is constant, so reading it
before the first frame is the same as between the frames (R48), and a refusal appends no event (R111; log 21). -/
def renderGlyph (i : Nat) (s : State) : Except RefusalCause State :=
  match readGlyph s i with
  | .ok rows => .ok (sendFrames (rowFrames rows) s)
  | .error c => .error c

/-! ### Taking a refusal -/

/-- `raise Refused(reason)` (60_exceptions.md R111): it "sets `REFUSED <- true`; appends no event and changes no
other state; leaves `CPOS` at the refused word". The engine's only stop; there is no trap entry or return
(R115, R116). -/
def refuse (c : RefusalCause) (s : State) : State := { s with refused := some c }

/-- The state a command leaves: what it did, or `s` with the refusal it met. -/
def orRefuse (r : Except RefusalCause State) (s : State) : State :=
  match r with
  | .ok t => t
  | .error c => refuse c s

/-! ### The wait and its return -/

/-- `WaitMs(n)` (R14): the request is recorded and the engine waits. -/
def waitMs (n : Nat) (s : State) : State := { s.record (.wait n) with phase := .waiting }

/-- The cursor a TICK leaves: `(i + 1) mod N` for `i = clamp(CURSOR)` (R101). -/
def nextCursor (b : Build) (cursor : Byte) : Byte := BitVec.ofNat 8 ((clampIndex b cursor + 1) % b.glyphCount)

/-- The resume step of TICK (R101): `CURSOR <- (i + 1) mod N; PHASE <- READY; CPOS <- CPOS + 1`. `CURSOR` "still
holds the old index" during the wait (R31), so `i` is found again from it (log 13). -/
def resumeTick (s : State) : State :=
  { s with cursor := nextCursor s.build s.cursor, phase := .ready, cpos := s.cpos + 1 }

/-- One turn of the timing service while the engine waits (R118): it returns, or lets the turn pass. The engine
drives no line and keeps its state meanwhile. Log 8. -/
def serviceTurn (s : State) : State :=
  match s.waitReplies with
  | [] => resumeTick s
  | .after 0 :: later => resumeTick { s with waitReplies := later }
  | .after (n + 1) :: later => { s with waitReplies := .after n :: later }
  | .never :: _ => s

/-! ### The command stream -/

/-- `CMD[k]`, if `k` is inside the stream (R79). -/
def wordAt (c : CommandStream) (k : Nat) : Option CommandWord :=
  match c.head[k]? with
  | some w => some w
  | none => c.loop[(k - c.head.length) % c.loop.length]?

/-- `length(CMD)`; an endless stream has none (R131). -/
def streamLength (c : CommandStream) : Option Nat := if c.loop.isEmpty then some c.head.length else none

/-- The words `CMD[k .. k+n-1]`, as many of them as the stream has. -/
def wordsFrom (c : CommandStream) (k n : Nat) : List CommandWord := (List.range n).filterMap fun j => wordAt c (k + j)

/-- The stream with the words `ws` from position `k` on and every other word as before; a finite stream that ends
before `k` is filled up with zero words. Used by `State.withFetchWord` only. -/
def placeWords (c : CommandStream) (k : Nat) (ws : List CommandWord) : CommandStream where
  head := (List.range k).map (fun j => (wordAt c j).getD 0) ++ ws ++ c.head.drop (k + ws.length)
  loop := c.loop.rotateLeft (k + ws.length - c.head.length)

/-! ### The command cycle -/

/-- What the fetch at `CPOS` finds (40_link.md R79). -/
inductive Fetched where
  /-- a command and its length in words -/
  | command (i : Instr) (len : Nat)
  /-- a word the model refuses -/
  | refusal (c : RefusalCause)
  /-- `CPOS` is not inside `CMD` -/
  | stop (f : Fault)
deriving DecidableEq, Repr

/-- The fetch of R79: the word at `CPOS`, `Reserved` if it matches no row, its length `L`, `Truncated` if the stream
ends before `CPOS + L`, and otherwise the command. -/
def fetchCommand (s : State) : Fetched :=
  match wordAt s.cmd s.cpos with
  | none => .stop (if streamLength s.cmd = some s.cpos then .endOfRun else .cposOutsideStream)
  | some cw =>
    match commandLength cw with
    | none => .refusal (.reserved cw s.cpos)
    | some len =>
      match decode (wordsFrom s.cmd s.cpos len) with
      | .ok (i, _) => .command i len
      | .error _ => .refusal (.truncated s.cpos)

/-- The end of R79's step: "if PHASE = READY: CPOS <- CPOS + L". A TICK advances at its resume step (R101), and a
refused command leaves `CPOS` (R111). -/
def finishCommand (len : Nat) (s : State) : State :=
  if s.phase = .ready ∧ s.refused = none then { s with cpos := s.cpos + len } else s

/-- The command cycle's end applied to what the command answered. -/
def afterExec (len : Nat) : Host.Outcome State Fault Refusal → Host.Outcome State Fault Refusal
  | .next t => .next (finishCommand len t)
  | .fault f => .fault f
  | .refused r => .refused r

end Sys2Proof.Machine
end

