-- ==== Sys2Proof/Machine/Controller.lean ====
section
/-!
DEFINITION. The Device Controller commands (41_controller.md): WRREG, INIT, CLEAR and RENDER.
-/

namespace Sys2Proof.Machine

/-- WRREG (R90): `frame(zext_8(A), V)`; every `A` is sent unchanged (R74). -/
def execWrreg (a : RegId) (v : Byte) (s : State) : Host.Outcome State Fault Refusal :=
  .next (sendFrame (addressByte a) v s)

/-- The eight blank rows of INIT and CLEAR, register 1 to 8 in ascending order (R91, R93). -/
def blankFrames : List (Byte × Byte) := rowFrames (List.replicate 8 0x00#8)

/-- The thirteen frames of INIT in the normative order (R91, R92). -/
def initFrames (b : Build) : List (Byte × Byte) :=
  [ (regDecodeMode, Config.decodeValue),
    (regScanLimit, Config.scanLimitValue),
    (regIntensity, b.intensity),
    (regShutdown, Config.shutdownExitValue),
    (regDisplayTest, Config.dispTestValue) ] ++ blankFrames

/-- INIT (R91). -/
def execInit (s : State) : Host.Outcome State Fault Refusal := .next (sendFrames (initFrames s.build) s)

/-- CLEAR (R93). -/
def execClear (s : State) : Host.Outcome State Fault Refusal := .next (sendFrames blankFrames s)

/-- RENDER (R94): `frame(r + 1, rows[r])` for `r = 0` to `7`. -/
def execRender (rows : Vector Byte 8) (s : State) : Host.Outcome State Fault Refusal :=
  .next (sendFrames (rowFrames rows.toList) s)

end Sys2Proof.Machine
end

