-- ==== Sys2Proof/Machine/Link.lean ====
section
/-!
DEFINITION. The Serial Link commands (40_link.md): SELECT, DESELECT and TXBYTE.
-/

namespace Sys2Proof.Machine

/-- SELECT (R80): `PinWrite(CS, 0)`. -/
def execSelect (s : State) : Host.Outcome State Fault Refusal := .next (pinWrite .cs false s)

/-- DESELECT (R81): `PinWrite(CS, 1)`. -/
def execDeselect (s : State) : Host.Outcome State Fault Refusal := .next (pinWrite .cs true s)

/-- TXBYTE (R82): one byte, most significant bit first. -/
def execTxbyte (v : Byte) (s : State) : Host.Outcome State Fault Refusal := .next (txByte v s)

end Sys2Proof.Machine
end

