-- ==== Sys2Proof/Machine/Sequencer.lean ====
section
/-!
DEFINITION. The Display Sequencer commands (42_sequencer.md): TICK's issue step and SHOW.
-/

namespace Sys2Proof.Machine

/-- TICK's issue step (R101): render glyph `clamp(CURSOR)` and request the wait. Its resume step is `resumeTick`. -/
def execTick (s : State) : Host.Outcome State Fault Refusal :=
  .next (orRefuse ((renderGlyph (clampIndex s.build s.cursor) s).map (waitMs Config.tickMs)) s)

/-- SHOW (R102): render glyph `clamp(V)`; no wait, no cursor change. -/
def execShowGlyph (v : Byte) (s : State) : Host.Outcome State Fault Refusal :=
  .next (orRefuse (renderGlyph (clampIndex s.build v) s) s)

end Sys2Proof.Machine
end

