-- ==== Sys2Proof/Machine/Dispatch.lean ====
section
/-!
DEFINITION. One arm per command: the meaning of each (30_encoding.md R64).
-/

namespace Sys2Proof.Machine

def exec (i : Instr) (s : State) : Host.Outcome State Fault Refusal :=
  match i with
  | .select => Sys2Proof.Machine.execSelect s
  | .deselect => Sys2Proof.Machine.execDeselect s
  | .txbyte v => Sys2Proof.Machine.execTxbyte v s
  | .wrreg a v => Sys2Proof.Machine.execWrreg a v s
  | .init => Sys2Proof.Machine.execInit s
  | .clear => Sys2Proof.Machine.execClear s
  | .render rows => Sys2Proof.Machine.execRender rows s
  | .tick => Sys2Proof.Machine.execTick s
  | .showGlyph v => Sys2Proof.Machine.execShowGlyph v s

end Sys2Proof.Machine
end

