-- ==== Sys2Proof/Machine/Step.lean ====
section
/-!
DEFINITION. One step of the machine (40_link.md R79, 60_exceptions.md R111 and R118), and how an instruction is
placed where the step fetches it.
-/

namespace Sys2Proof.Machine

/-- One step. A refused machine has none (R111). A waiting machine gives the turn to the timing service (R118).
A ready machine runs the command cycle of R79; a refusal there is a next state with `REFUSED` set (log 9). -/
def step (s : State) : Host.Outcome State Fault Refusal :=
  match s.refused with
  | some c => .refused (.stopped c)
  | none =>
    match s.phase with
    | .waiting => .next (serviceTurn s)
    | .ready =>
      match fetchCommand s with
      | .stop f => .fault f
      | .refusal c => .next (refuse c s)
      | .command i len => afterExec len (exec i s)

/-- `s` with the words of `w` in its command stream from `CPOS` on, ready to fetch them (log 2). -/
def State.withFetchWord (s : State) (nbits w : Nat) : State :=
  { s with cmd := placeWords s.cmd s.cpos (tableWords nbits w), phase := .ready, refused := none }

end Sys2Proof.Machine
end

