-- ==== Sys2Proof/Machine/Assembler.lean ====
section
/-!
DEFINITION. The assembler (30_encoding.md R68 to R70): from a source line's text to the words it places in the
command stream. The text conventions R68 leaves open are log 19.
-/

namespace Sys2Proof

/-- Why an assembler rejects a line (R68). -/
inductive AsmError where
  /-- no mnemonic of R68 and not the directive -/
  | unknownMnemonic
  /-- an operand missing or left over -/
  | wrongOperandCount
  /-- text that is neither a number nor, for a register, a name of R69 -/
  | badOperand
  /-- a number outside its range; "An assembler rejects a larger value. It does not truncate it." -/
  | outOfRange
deriving DecidableEq, Repr

/-! ### From a line's terms to words -/

/-- R70: "Each source function maps to exactly one command". `.word` is none (R68), nor is an ill-formed line. -/
def AsmLine.toInstr (l : AsmLine) : Option Instr :=
  if l.wf then
    match l with
    | .sel => some .select
    | .desel => some .deselect
    | .tx b => some (.txbyte (BitVec.ofNat 8 b))
    | .wr r b => some (.wrreg (BitVec.ofNat 4 r) (BitVec.ofNat 8 b))
    | .init => some .init
    | .clr => some .clear
    | .render bs => some (.render (Vector.ofFn fun r => BitVec.ofNat 8 (bs.getD r 0)))
    | .tick => some .tick
    | .showGlyph i => some (.showGlyph (BitVec.ofNat 8 i))
    | .word _ => none
  else none

/-- The words a line places in the stream (R68), or its rejection. -/
def AsmLine.words (l : AsmLine) : Except AsmError (List CommandWord) :=
  match l.toInstr, l with
  | some i, _ => .ok (encode i)
  | none, .word w => if wordInRange w then .ok [BitVec.ofNat 16 w] else .error .outOfRange
  | none, .render bs => if bs.length = 8 then .error .outOfRange else .error .wrongOperandCount
  | none, _ => .error .outOfRange

/-- The source form of a command, the inverse of `AsmLine.toInstr` (R70). -/
def Instr.toAsmLine : Instr → AsmLine
  | .select => .sel
  | .deselect => .desel
  | .txbyte v => .tx v.toNat
  | .wrreg a v => .wr a.toNat v.toNat
  | .init => .init
  | .clear => .clr
  | .render rows => .render (rows.toList.map BitVec.toNat)
  | .tick => .tick
  | .showGlyph v => .showGlyph v.toNat

/-! ### From a command to text -/

/-- A line's text (R68): the mnemonic, and after a blank the operands with commas between them. -/
def lineText (mnemonic : List Char) (operands : List (List Char)) : List Char :=
  match operands with
  | [] => mnemonic
  | _ :: _ => mnemonic ++ ' ' :: [','].intercalate operands

/-- A digit in base 16. -/
def hexDigit (d : BitVec 4) : Char := Nat.digitChar d.toNat

/-- A byte as a hexadecimal number (R68). -/
def byteText (v : Byte) : List Char := ['0', 'x', hexDigit (v.extractLsb' 4 4), hexDigit (v.extractLsb' 0 4)]

/-- A word as a hexadecimal number (R68). -/
def wordText (w : CommandWord) : List Char :=
  ['0', 'x', hexDigit (w.extractLsb' 12 4), hexDigit (w.extractLsb' 8 4), hexDigit (w.extractLsb' 4 4),
    hexDigit (w.extractLsb' 0 4)]

/-- A source line for a command (R68), its numbers in hexadecimal. -/
def Instr.sourceText : Instr → List Char
  | .select => lineText "sel".toList []
  | .deselect => lineText "desel".toList []
  | .txbyte v => lineText "tx".toList [byteText v]
  | .wrreg a v => lineText "wr".toList [byteText (a.zeroExtend 8), byteText v]
  | .init => lineText "init".toList []
  | .clear => lineText "clr".toList []
  | .render rows => lineText "render".toList (rows.toList.map byteText)
  | .tick => lineText "tick".toList []
  | .showGlyph v => lineText "show".toList [byteText v]

/-- The texts of a number (R68): decimal, or hexadecimal with `0x` and any leading zeros, as R68's own lines write it. -/
abbrev IsNumberText (n : Nat) (text : List Char) : Prop :=
  text = Nat.toDigits 10 n ∨ ∃ k, text = '0' :: 'x' :: (List.replicate k '0' ++ Nat.toDigits 16 n)

/-! ### From text to a line's terms -/

/-- A blank of a source line (log 19). -/
def isBlank (c : Char) : Bool := c == ' ' || c == '\t' || c == '\r'

/-- The value of a digit in base 16. -/
def digitValue (c : Char) : Option Nat :=
  if '0' ≤ c ∧ c ≤ '9' then some (c.toNat - '0'.toNat)
  else if 'a' ≤ c ∧ c ≤ 'f' then some (c.toNat - 'a'.toNat + 10)
  else if 'A' ≤ c ∧ c ≤ 'F' then some (c.toNat - 'A'.toNat + 10)
  else none

/-- The number some digits write in a base; `acc` is the value of the digits before them. -/
def readDigits (base : Nat) : Nat → List Char → Option Nat
  | acc, [] => some acc
  | acc, c :: cs =>
    match digitValue c with
    | none => none
    | some d => if d < base then readDigits base (base * acc + d) cs else none

/-- A hexadecimal number with its `0x` (R68). -/
def readHex : List Char → Option Nat
  | '0' :: 'x' :: d :: ds => readDigits 16 0 (d :: ds)
  | _ => none

/-- R68: "Numbers are decimal or `0x` hexadecimal." -/
def readNumber (cs : List Char) : Option Nat :=
  match readHex cs with
  | some n => some n
  | none => if cs.isEmpty then none else readDigits 10 0 cs

/-- The symbolic register names of R69. -/
def registerNames : List (List Char × Nat) :=
  [ (['R', 'O', 'W', '1'], 0x1), (['R', 'O', 'W', '2'], 0x2), (['R', 'O', 'W', '3'], 0x3), (['R', 'O', 'W', '4'], 0x4),
    (['R', 'O', 'W', '5'], 0x5), (['R', 'O', 'W', '6'], 0x6), (['R', 'O', 'W', '7'], 0x7), (['R', 'O', 'W', '8'], 0x8),
    (['D', 'E', 'C', 'O', 'D', 'E', 'M', 'O', 'D', 'E'], 0x9),
    (['I', 'N', 'T', 'E', 'N', 'S'], 0xA),
    (['S', 'C', 'A', 'N', 'L', 'I', 'M', 'I', 'T'], 0xB),
    (['S', 'H', 'U', 'T', 'D', 'O', 'W', 'N'], 0xC),
    (['D', 'I', 'S', 'P', 'T', 'E', 'S', 'T'], 0xF) ]

/-- A `<reg>`: a number (R68) or a name of R69. -/
def readRegister (cs : List Char) : Option Nat :=
  match registerNames.lookup cs with
  | some n => some n
  | none => readNumber cs

/-- A text without the blanks at its two ends. -/
def trimBlanks (cs : List Char) : List Char := ((cs.dropWhile isBlank).reverse.dropWhile isBlank).reverse

/-- The operands of a line: the parts between commas, trimmed; blank text has none. -/
def splitOperands (cs : List Char) : List (List Char) :=
  if (trimBlanks cs).isEmpty then [] else (cs.splitOn ',').map trimBlanks

/-- R68: `;` starts a comment to the end of the line. -/
def withoutComment (cs : List Char) : List Char := cs.takeWhile (· != ';')

/-- One number for an operand of its own. -/
def oneNumber (operands : List (List Char)) (make : Nat → AsmLine) : Except AsmError AsmLine :=
  match operands with
  | [x] => match readNumber x with
    | some n => .ok (make n)
    | none => .error .badOperand
  | _ => .error .wrongOperandCount

/-- A line without operands. -/
def noOperand (operands : List (List Char)) (l : AsmLine) : Except AsmError AsmLine :=
  match operands with
  | [] => .ok l
  | _ => .error .wrongOperandCount

/-- The numbers of a list of operands, if each is one. -/
def readNumbers : List (List Char) → Option (List Nat)
  | [] => some []
  | x :: xs =>
    match readNumber x, readNumbers xs with
    | some n, some ns => some (n :: ns)
    | _, _ => none

/-- The mnemonics of R68, in lower case, with their operands. -/
def readLine (mnemonic : List Char) (operands : List (List Char)) : Except AsmError AsmLine :=
  match mnemonic with
  | ['s', 'e', 'l'] => noOperand operands .sel
  | ['d', 'e', 's', 'e', 'l'] => noOperand operands .desel
  | ['t', 'x'] => oneNumber operands .tx
  | ['w', 'r'] =>
    match operands with
    | [r, b] => match readRegister r, readNumber b with
      | some rn, some bn => .ok (.wr rn bn)
      | _, _ => .error .badOperand
    | _ => .error .wrongOperandCount
  | ['i', 'n', 'i', 't'] => noOperand operands .init
  | ['c', 'l', 'r'] => noOperand operands .clr
  | ['r', 'e', 'n', 'd', 'e', 'r'] =>
    match readNumbers operands with
    | some ns => .ok (.render ns)
    | none => .error .badOperand
  | ['t', 'i', 'c', 'k'] => noOperand operands .tick
  | ['s', 'h', 'o', 'w'] => oneNumber operands .showGlyph
  | ['.', 'w', 'o', 'r', 'd'] =>
    match operands with
    | [x] => match readHex x with
      | some n => .ok (.word n)
      | none => .error .badOperand
    | _ => .error .wrongOperandCount
  | _ => .error .unknownMnemonic

/-- The line a text stands for (R68): its mnemonic and operands with the comment cut off, or no line for an empty text. The
numbers are as written, in range or not. -/
def readSource (text : List Char) : Except AsmError (Option AsmLine) :=
  let body := trimBlanks (withoutComment text)
  if body.isEmpty then .ok none
  else
    match readLine (body.takeWhile fun c => !isBlank c) (splitOperands (body.dropWhile fun c => !isBlank c)) with
    | .ok l => .ok (some l)
    | .error e => .error e

/-- The words a source line places in the stream: none for an empty line or a comment (R68). -/
def assembleLine (text : List Char) : Except AsmError (List CommandWord) :=
  match readSource text with
  | .ok none => .ok []
  | .ok (some l) => l.words
  | .error e => .error e

/-- A program: the words of its lines one after another, or the first rejection (R68: one command per line). -/
def assemble : List (List Char) → Except AsmError (List CommandWord)
  | [] => .ok []
  | l :: ls =>
    match assembleLine l with
    | .error e => .error e
    | .ok ws =>
      match assemble ls with
      | .error e => .error e
      | .ok rest => .ok (ws ++ rest)

end Sys2Proof
end

