-- ==== Sys2Proof/Machine/Receiver.lean ====
section
/-!
DEFINITION. The receiver view (20_memory.md R53 to R58): what the trace of the bus says the MAX7219 received. It is
observation, not state of the engine (10_state.md R26; log 23).
-/

namespace Sys2Proof.Machine

/-- An entry of `FRAMES` (R53). -/
inductive BusFrame where
  /-- a well-formed frame: exactly sixteen bits between the edges of CS -/
  | frame (a d : Byte)
  /-- a CS rising edge with other than sixteen bits, or without a falling edge before it -/
  | corrupt
  /-- a CLK rising edge while CS is high -/
  | stray
deriving DecidableEq, Repr

/-- `DEVREG` (R53): the device registers 0x00 to 0x0F, `none` meaning UNKNOWN. No other address is ever known (R56). -/
abbrev DevReg := Vector (Option Byte) 16

/-- Every register UNKNOWN (R53, R57). -/
def DevReg.unknown : DevReg := Vector.replicate 16 none

/-- `DEVREG[a]`; `none` is UNKNOWN. -/
def DevReg.read (regs : DevReg) (a : Byte) : Option Byte := (regs[a.toNat]?).join

/-- The addresses the source recognises (R56, R71). -/
def recognised (a : Byte) : Bool :=
  [0x01#8, 0x02#8, 0x03#8, 0x04#8, 0x05#8, 0x06#8, 0x07#8, 0x08#8,
   regDecodeMode, regIntensity, regScanLimit, regShutdown, regDisplayTest].contains a

/-- The receiver's state (R53). -/
structure Receiver where
  cs : Level
  clk : Level
  din : Level
  /-- the bits sampled in the open frame, in sampling order -/
  bits : List Level
  /-- a frame was opened by a CS falling edge -/
  isOpen : Bool
  /-- `FRAMES` -/
  frames : List BusFrame
  /-- `DEVREG` -/
  devreg : DevReg
deriving DecidableEq, Repr

/-- The receiver before the first event (R53), with the levels of CLK and DIN at reset. -/
def Receiver.initial (clk din : Level) : Receiver where
  cs := true
  clk := clk
  din := din
  bits := []
  isOpen := false
  frames := []
  devreg := DevReg.unknown

/-- R57: every register becomes UNKNOWN. -/
def Receiver.havoc (r : Receiver) : Receiver := { r with devreg := DevReg.unknown }

/-- `FRAMES <- FRAMES ++ [f]` (R53). -/
def Receiver.log (r : Receiver) (f : BusFrame) : Receiver := { r with frames := r.frames ++ [f] }

/-- The number whose binary digits are `bits`, the most significant first. -/
def natOfBits (bits : List Level) : Nat := bits.foldl (fun n b => 2 * n + b.toNat) 0

/-- R53: bits "read MSB first as a byte". -/
def byteOfBits (bits : List Level) : Byte := BitVec.ofNat 8 (natOfBits bits)

/-- `apply(a, d)` (R56): a recognised register takes the data, any other address havocs. -/
def Receiver.applyFrame (r : Receiver) (a d : Byte) : Receiver :=
  if recognised a then { r with devreg := r.devreg.setIfInBounds a.toNat (some d) } else r.havoc

/-- R53, a CS rising edge: the open frame closes, well-formed or corrupt. -/
def Receiver.closeFrame (r : Receiver) : Receiver :=
  let closed :=
    if r.isOpen ∧ r.bits.length = 16 then
      let a := byteOfBits (r.bits.take 8)
      let d := byteOfBits (r.bits.drop 8)
      (r.log (.frame a d)).applyFrame a d
    else (r.log .corrupt).havoc
  { closed with bits := [], isOpen := false }

/-- R53, a CLK rising edge: a bit is sampled, or the edge is stray. -/
def Receiver.sample (r : Receiver) : Receiver :=
  if r.cs then (r.log .stray).havoc else { r with bits := r.bits ++ [r.din] }

/-- R53: what one event does. A level write that makes no edge changes only the receiver's copy of the line. -/
def Receiver.onEvent (r : Receiver) (e : Event) : Receiver :=
  match e with
  | .pin .din b => { r with din := b }
  | .pin .clk b => { (if !r.clk && b then r.sample else r) with clk := b }
  | .pin .cs b =>
    let r' :=
      if r.cs && !b then { r with bits := [], isOpen := true }
      else if !r.cs && b then r.closeFrame
      else r
    { r' with cs := b }
  | .wait _ => r

/-- The receiver view of a trace, from the reset levels of CLK and DIN (R53). -/
def receiverView (clk din : Level) (trace : List Event) : Receiver :=
  trace.foldl Receiver.onEvent (Receiver.initial clk din)

/-- The receiver view of a state: "a function of `TRACE` and the reset line levels" (R53). -/
def State.receiver (s : State) : Receiver := receiverView s.build.resetClk s.build.resetDin s.trace

/-! ### What the device shows (R55, R58) -/

/-- `IMG[r] = DEVREG[r+1]` (R58). -/
def Receiver.image (r : Receiver) (row : Nat) : Option Byte := r.devreg.read (regRow row)

/-- R58: "The matrix shows glyph `g`" means `IMG[r] = g[r]` for every `r`. -/
def Receiver.shows (r : Receiver) (g : Vector Byte 8) : Bool :=
  (List.range 8).all fun row => r.image row == g[row]?

/-- R58: the control-register values under which the LEDs show `IMG`. PRESUMED by the spec itself (G6); log 15. -/
def Receiver.displayEnabled (r : Receiver) : Bool :=
  r.devreg.read regShutdown == some 0x01#8 && r.devreg.read regDisplayTest == some 0x00#8 &&
  r.devreg.read regDecodeMode == some 0x00#8 && r.devreg.read regScanLimit == some 0x07#8

/-! The fields of the control registers (R55), every layout PRESUMED by the spec itself (G1); log 15. -/

/-- R55, decode-mode: bit `k` selects Code-B decode for digit `k`. -/
def Receiver.codeB (r : Receiver) (digit : Nat) : Option Bool :=
  (r.devreg.read regDecodeMode).map fun b => b.getLsbD digit

/-- R55, intensity: bits 3:0 select the PWM duty. -/
def Receiver.duty (r : Receiver) : Option (BitVec 4) := (r.devreg.read regIntensity).map fun b => b.extractLsb' 0 4

/-- R55, scan-limit: bits 2:0 are the number of scanned digits minus 1. -/
def Receiver.digitsScanned (r : Receiver) : Option Nat :=
  (r.devreg.read regScanLimit).map fun b => (b.extractLsb' 0 3).toNat + 1

/-- R55, shutdown: bit 0 is 1 in normal operation. -/
def Receiver.poweredUp (r : Receiver) : Option Bool := (r.devreg.read regShutdown).map fun b => b.getLsbD 0

/-- R55, display-test: bit 0 is 1 in test mode. -/
def Receiver.testMode (r : Receiver) : Option Bool := (r.devreg.read regDisplayTest).map fun b => b.getLsbD 0

/-- R41, R55, R58: whether the LED at a row and a column (column 0 leftmost, bit 7) is lit: in test mode every LED is on,
with the display enabled it is the row's bit, and `none` is where the view cannot say. PRESUMED by the spec itself (G1, G3,
G6); log 15. -/
def Receiver.ledLit (r : Receiver) (row col : Fin 8) : Option Bool :=
  if r.testMode = some true then some true
  else if r.displayEnabled then (r.image row.val).map fun b => b.getLsbD (7 - col.val)
  else none

end Sys2Proof.Machine
end

