-- ==== Sys2Proof/Machine/Reset.lean ====
section
/-!
DEFINITION. Reset during a run (70_reset_and_hazards.md R130): an input from outside, at any event, that no step of
the machine takes (log 16).
-/

namespace Sys2Proof.Machine

/-- The events the step from `s` appends (R48). -/
def stepEvents (s : State) : List Event :=
  match step s with
  | .next t => t.trace.drop s.trace.length
  | .fault _ => []
  | .refused _ => []

/-- The trace of a run that a reset cuts after the first `k` events of the step from `s`: it "abandons the command in
progress, so the rest of that command's events never occur" (R130). Every bit position inside a TXBYTE is such
a cut (R31). -/
def abandonedTrace (s : State) (k : Nat) : List Event := s.trace ++ (stepEvents s).take k

/-- The state in which the new run after a reset starts (R130), whatever the abandoned run had reached; `replies` is
what the timing service will do from then on (log 8). -/
def externalReset (s : State) (replies : List WaitReply) : State := State.resetWith s.build s.cmd replies

end Sys2Proof.Machine
end

