-- ==== Sys2Proof/Safety.lean ====
section
/-!
DEFINITION. The terms in which claims speak of the engine: the events the rules print, the frames each command
sends, the invariant of the machine, how a run ends and the frame contract.
-/

namespace Sys2Proof.Machine

/-! ### Events and frames as the rules print them -/

/-- The 24 events of a TXBYTE of `v` (R82): `Pin(CLK,0)`, `Pin(DIN,v[i])`, `Pin(CLK,1)` for `i = 7 downto 0`. -/
def txEvents (v : Byte) : List Event :=
  [7, 6, 5, 4, 3, 2, 1, 0].flatMap fun i => [.pin .clk false, .pin .din (v.getLsbD i), .pin .clk true]

/-- The 50 events of one frame (R73). -/
def frameEvents (a d : Byte) : List Event := [.pin .cs false] ++ txEvents a ++ txEvents d ++ [.pin .cs true]

/-- The events of frames sent one after another. -/
def framesEvents (fs : List (Byte × Byte)) : List Event := fs.flatMap fun f => frameEvents f.1 f.2

/-- `G[i][r] = MemRead(8*i + r, 1)` (R41). Under `Build.wf` every address with `i < N` and `r < 8` exists; the 0 for
the others is read by no claim. -/
def glyphByte (b : Build) (i r : Nat) : Byte := (Memory.read b.rom (8 * i + r)).getD 0#8

/-- The frames of `render_glyph(i)`: register `r + 1` takes `G[i][r]`, `r` ascending (R101, R102). -/
def glyphFrames (b : Build) (i : Nat) : List (Byte × Byte) :=
  (List.range 8).map fun r => (BitVec.ofNat 8 (r + 1), glyphByte b i r)

/-- The frames a controller or sequencer command sends, as its rule lists them (R90, R91, R93, R94, R101, R102); the
raw link commands send none of their own. -/
def commandFrames (i : Instr) (s : State) : List (Byte × Byte) :=
  match i with
  | .select => []
  | .deselect => []
  | .txbyte _ => []
  | .wrreg a v => [(a.zeroExtend 8, v)]
  | .init =>
    [(0x09#8, Config.decodeValue), (0x0B#8, Config.scanLimitValue), (0x0A#8, s.build.intensity), (0x0C#8, 0x01#8),
     (0x0F#8, Config.dispTestValue)] ++ (List.range 8).map fun r => (BitVec.ofNat 8 (r + 1), 0x00#8)
  | .clear => (List.range 8).map fun r => (BitVec.ofNat 8 (r + 1), 0x00#8)
  | .render rows => (List.finRange 8).map fun (r : Fin 8) => (BitVec.ofNat 8 (r.val + 1), rows[r])
  | .tick => glyphFrames s.build (clampIndex s.build s.cursor)
  | .showGlyph v => glyphFrames s.build (clampIndex s.build v)

/-- The entries of `FRAMES` for frames sent (R53). -/
def asBusFrames (fs : List (Byte × Byte)) : List BusFrame := fs.map fun f => .frame f.1 f.2

/-- A raw Serial Link command (40_link.md): the three that can break the frame contract. -/
def isRawLink (i : Instr) : Bool :=
  match i with
  | .select => true
  | .deselect => true
  | .txbyte _ => true
  | .wrreg _ _ => false
  | .init => false
  | .clear => false
  | .render _ => false
  | .tick => false
  | .showGlyph _ => false

/-- How many events of a list are wait requests (R140). -/
def waitCount (es : List Event) : Nat := es.countP fun e => match e with
  | .wait _ => true
  | .pin _ _ => false

/-- R140: the `Pin` events and the `Wait` events of each command. -/
def eventCounts (i : Instr) : Nat × Nat :=
  match i with
  | .select => (1, 0)
  | .deselect => (1, 0)
  | .txbyte _ => (24, 0)
  | .wrreg _ _ => (50, 0)
  | .init => (650, 0)
  | .clear => (400, 0)
  | .render _ => (400, 0)
  | .tick => (400, 1)
  | .showGlyph _ => (400, 0)

/-- R66: the words that are refused, as the rule lists them: a reserved `OP`, or an assigned `OP` with a non-zero field
the command does not use. -/
abbrev IsReserved (cw : CommandWord) : Prop :=
  opField cw ∈ [0x0#4, 0xA#4, 0xB#4, 0xC#4, 0xD#4, 0xE#4, 0xF#4] ∨
  (opField cw ∈ [0x1#4, 0x2#4, 0x5#4, 0x6#4, 0x7#4, 0x8#4] ∧ (aField cw ≠ 0 ∨ vField cw ≠ 0)) ∨
  (opField cw ∈ [0x3#4, 0x9#4] ∧ aField cw ≠ 0)

/-! ### The invariant -/

/-- The receiver's copies of the lines are the engine's lines: nothing but the engine drives them (R47, R53). -/
abbrev LinesAgree (s : State) : Prop :=
  s.receiver.cs = s.cs ∧ s.receiver.clk = s.clk ∧ s.receiver.din = s.din

/-- The receiver view of a state once some more events have been issued. -/
abbrev State.receiverAfter (s : State) (es : List Event) : Receiver :=
  receiverView s.build.resetClk s.build.resetDin (s.trace ++ es)

/-- R101's post-state of the issue step, kept through the wait: the lines are at rest and the last event is the
wait request. -/
abbrev WaitIsQuiet (s : State) : Prop :=
  s.phase = .waiting → s.cs = true ∧ s.clk = true ∧ s.trace.getLast? = some (.wait Config.tickMs)

/-- What every command keeps, whatever the command stream: the build is in range and its ROM in canonical form,
`CURSOR < N` (R28), the receiver has seen every level, a wait is quiet, and a refused machine is not waiting. -/
abbrev EngineInv (s : State) : Prop :=
  s.build.wf ∧ s.cursor.toNat < s.build.glyphCount ∧ LinesAgree s ∧ WaitIsQuiet s ∧
    (s.refused ≠ none → s.phase = .ready)

/-- `CPOS` and a finite stream (R79, R142): never past the end, and inside the stream while a TICK waits, whose word it
still points at (R101). -/
abbrev CposInStream (s : State) : Prop :=
  ∀ n ∈ streamLength s.cmd, s.cpos ≤ n ∧ (s.phase = .waiting → s.cpos < n)

/-- The invariant of the machine. -/
abbrev Inv (s : State) : Prop := EngineInv s ∧ CposInStream s

/-- What a command or step does to one line, seen in two runs that differ in line levels: the line starts at `l` in one
and at `l'` in the other, and ends at `m` and `m'`. It is equal in both at the end, or left as it was in both (R24). -/
abbrev LineIsDrivenOrKept (l l' m m' : Level) : Prop := m' = m ∨ (m = l ∧ m' = l')

/-- Two receivers that agree on everything but their copies of CLK and DIN. -/
abbrev SameFraming (r q : Receiver) : Prop :=
  r.cs = q.cs ∧ r.bits = q.bits ∧ r.isOpen = q.isOpen ∧ r.frames = q.frames ∧ r.devreg = q.devreg

/-- R33: what the receiver makes of the trace does not depend on the levels of CLK and DIN at reset. -/
abbrev ResetLevelsUnseen (s : State) : Prop :=
  ∀ clk din : Level, SameFraming (receiverView clk din s.trace) s.receiver

/-- A machine that is about to run a command: not refused and not waiting (R79). -/
abbrev Ready (s : State) : Prop := s.refused = none ∧ s.phase = .ready

/-! ### Runs -/

/-- `n` steps of the machine, stopping at the first fault or refusal. -/
def runSteps : Nat → State → Host.Outcome State Fault Refusal
  | 0, s => .next s
  | n + 1, s =>
    match step s with
    | .next t => runSteps n t
    | .fault f => .fault f
    | .refused r => .refused r

/-- Commands executed one after another, each to completion: a TICK is complete "once its wait has returned" (R47).
Every wait returns here, whatever `waitReplies` holds (R118's fairness; log 8), and the stream is not read. -/
def runCommands : List Instr → State → Host.Outcome State Fault Refusal
  | [], s => .next s
  | i :: is, s =>
    match exec i s with
    | .next t =>
      match t.phase with
      | .waiting => runCommands is (resumeTick t)
      | .ready => runCommands is (finishCommand (encode i).length t)
    | .fault f => .fault f
    | .refused r => .refused r

/-- R142: how a run stands at a state. -/
inductive RunStatus where
  /-- the finite stream has ended normally -/
  | normalEnd
  /-- "a refused stop, not a normal end" -/
  | refusedStop
  /-- "waiting on the host, not ended" -/
  | waiting
  /-- a command is there to be run -/
  | running
  /-- `CPOS` beyond the stream: no run reaches it -/
  | outsideStream
deriving DecidableEq, Repr

/-- R142: how the run stands. -/
def State.status (s : State) : RunStatus :=
  if s.isRefused then .refusedStop
  else if s.phase = .waiting then .waiting
  else if (wordAt s.cmd s.cpos).isSome then .running
  else if streamLength s.cmd = some s.cpos then .normalEnd
  else .outsideStream

/-- A safe run's state: the invariant holds and nothing was refused (R142: a refused stop is not a normal end). -/
abbrev Safe (s : State) : Prop := Inv s ∧ s.refused = none

/-- The frame contract of the link (R83, R139): every raw SELECT is followed by exactly two TXBYTEs and a DESELECT. -/
def keepsContract : List Instr → Bool
  | [] => true
  | .select :: .txbyte _ :: .txbyte _ :: .deselect :: rest => keepsContract rest
  | .select :: _ => false
  | .deselect :: rest => keepsContract rest
  | .txbyte _ :: rest => keepsContract rest
  | .wrreg _ _ :: rest => keepsContract rest
  | .init :: rest => keepsContract rest
  | .clear :: rest => keepsContract rest
  | .render _ :: rest => keepsContract rest
  | .tick :: rest => keepsContract rest
  | .showGlyph _ :: rest => keepsContract rest

end Sys2Proof.Machine
end

