-- ==== Sys2Proof/Certificates/Slice0/Obligations.lean ====
section
/-!
DEFINITION. The statements about the engine, one `def Obligations.<Name> : Prop` each; OBLIGATIONS.json lists them.
-/

open Sys2Proof Sys2Proof.Machine

/-! ### Encoding -/

/-- R61 to R65: the decoder gives back every command from its words, with every operand, and leaves what follows. -/
def Obligations.EncodedCommandDecodesBack : Prop :=
  ∀ (i : Instr) (rest : List CommandWord), decode (encode i ++ rest) = .ok (i, rest)

/-- R64, R66: each command has one spelling. Words that decode to a command are that command's words. -/
def Obligations.DecodedWordsAreTheEncoding : Prop :=
  ∀ (ws rest : List CommandWord) (i : Instr), decode ws = .ok (i, rest) → ws = encode i ++ rest

/-- R64: "No word matches two rows." -/
def Obligations.NoWordMatchesTwoRows : Prop :=
  ∀ (cw : CommandWord), ∀ row ∈ opcodeMap, ∀ row' ∈ opcodeMap,
    row.accepts cw = true → row'.accepts cw = true → row = row'

/-- R64, R66: "matches no row" is exactly the condition of R66, and such a word stops a ready engine: no event, no
change but `REFUSED` (whose record is log 9), and no step after it. -/
def Obligations.ReservedWordsAreExactlyTheRefused : Prop :=
  (∀ (cw : CommandWord) (ext : List CommandWord), decode (cw :: ext) = .error (.reserved cw) ↔ IsReserved cw) ∧
  (∀ (s : State) (cw : CommandWord), Ready s → wordAt s.cmd s.cpos = some cw → IsReserved cw →
    step s = .next { s with refused := some (.reserved cw s.cpos) } ∧
    step { s with refused := some (.reserved cw s.cpos) } = .refused (.stopped (.reserved cw s.cpos)))

/-- R79, R114: a finite stream that ends inside RENDER's extension words is refused `Truncated` (record: log 9). -/
def Obligations.TruncatedRenderIsRefused : Prop :=
  ∀ (s : State) (n : Nat), Ready s → wordAt s.cmd s.cpos = some 0x7000#16 → streamLength s.cmd = some n →
    n < s.cpos + 5 → step s = .next { s with refused := some (.truncated s.cpos) }

/-- R63: the length of a command is known from its first word, and a reserved word, which has none, is refused with
`CPOS` left at it (the record in `REFUSED` is log 9). -/
def Obligations.FirstWordGivesTheLength : Prop :=
  (∀ (cw : CommandWord), commandLength cw =
    if cw = 0x7000#16 then some 5 else if IsReserved cw then none else some 1) ∧
  (∀ (i : Instr) (cw : CommandWord), (encode i).head? = some cw → commandLength cw = some (encode i).length) ∧
  (∀ (s : State) (cw : CommandWord), wordAt s.cmd s.cpos = some cw → commandLength cw = none → Ready s →
    step s = .next { s with refused := some (.reserved cw s.cpos) })

/-- R62, whole: RENDER's extension words, every value of them legal, and the byte order of a word. -/
def Obligations.ExtensionWordsHoldTheRows : Prop :=
  (∀ (e1 e2 e3 e4 : CommandWord) (rest : List CommandWord), ∃ rows : Vector Byte 8,
    decode (0x7000#16 :: e1 :: e2 :: e3 :: e4 :: rest) = .ok (.render rows, rest) ∧
    rows[0] = e1.extractLsb' 8 8 ∧ rows[1] = e1.extractLsb' 0 8 ∧
    rows[2] = e2.extractLsb' 8 8 ∧ rows[3] = e2.extractLsb' 0 8 ∧
    rows[4] = e3.extractLsb' 8 8 ∧ rows[5] = e3.extractLsb' 0 8 ∧
    rows[6] = e4.extractLsb' 8 8 ∧ rows[7] = e4.extractLsb' 0 8) ∧
  (∀ (hi lo : Byte), bytesOfWords [hi ++ lo] = [hi, lo]) ∧
  (∀ (ws : List CommandWord), wordsOfBytes (bytesOfWords ws) = ws)

/-- 95_test_vectors.md section 2.1: a few words written out from the encoding decode to the command they stand for. -/
def Obligations.SampleWordsDecodeAsPrinted : Prop :=
  decode [0x1000#16] = .ok (.select, []) ∧
  decode [0x30A5#16] = .ok (.txbyte 0xA5#8, []) ∧
  decode [0x4C01#16] = .ok (.wrreg 0xC#4 0x01#8, []) ∧
  decode [0x7000#16, 0x3C42#16, 0x4242#16, 0x4242#16, 0x423C#16] =
    .ok (.render #v[0x3C#8, 0x42#8, 0x42#8, 0x42#8, 0x42#8, 0x42#8, 0x42#8, 0x3C#8], []) ∧
  decode [0x90C8#16] = .ok (.showGlyph 200#8, []) ∧
  decode [0x2100#16] = .error (.reserved 0x2100#16) ∧
  decode [0x7000#16, 0x1234#16] = .error .truncated

/-- R68 to R70: the assembler, on a line's terms and on its text. Every command has a line that assembles to its words, a
line with an operand out of range is rejected, never truncated, and `.word` places its word. In text, a program that
writes commands assembles to their words, and each form of R68 that takes numbers is given for every number, in range or
not, decimal or hexadecimal, with a number or a name of R69 for a `<reg>`: in range the command's words, out of range an
error. `;` starts a comment. A text assembles exactly when it is empty or the line it reads as has its operands in range,
and then to that line's words. The blanks and commas of `lineText` and the names of the errors are log 19. -/
def Obligations.AssemblerIsFaithful : Prop :=
  (∀ (i : Instr), i.toAsmLine.wf = true ∧ i.toAsmLine.toInstr = some i ∧ i.toAsmLine.words = .ok (encode i)) ∧
  (∀ (l : AsmLine), l.wf = false → ∃ e, l.words = .error e) ∧
  (∀ (w : CommandWord), (AsmLine.word w.toNat).words = .ok [w] ∧
    assembleLine (lineText ".word".toList [wordText w]) = .ok [w]) ∧
  (∀ n k : Nat, assembleLine (lineText ".word".toList ['0' :: 'x' :: (List.replicate k '0' ++ Nat.toDigits 16 n)]) =
    if n ≤ 0xFFFF then .ok [BitVec.ofNat 16 n] else .error .outOfRange) ∧
  (∀ (is : List Instr), assemble (is.map Instr.sourceText) = .ok (is.flatMap encode)) ∧
  (∀ (n : Nat) (text : List Char), IsNumberText n text →
    assembleLine (lineText "tx".toList [text]) =
      (if n ≤ 255 then .ok (encode (.txbyte (BitVec.ofNat 8 n))) else .error .outOfRange) ∧
    assembleLine (lineText "show".toList [text]) =
      (if n ≤ 255 then .ok (encode (.showGlyph (BitVec.ofNat 8 n))) else .error .outOfRange)) ∧
  (∀ (r n : Nat) (reg text : List Char), IsNumberText r reg → IsNumberText n text →
    assembleLine (lineText "wr".toList [reg, text]) =
      if r ≤ 15 ∧ n ≤ 255 then .ok (encode (.wrreg (BitVec.ofNat 4 r) (BitVec.ofNat 8 n))) else .error .outOfRange) ∧
  (∀ p ∈ [("ROW1", 0x1#4), ("ROW2", 0x2#4), ("ROW3", 0x3#4), ("ROW4", 0x4#4), ("ROW5", 0x5#4), ("ROW6", 0x6#4),
      ("ROW7", 0x7#4), ("ROW8", 0x8#4), ("DECODEMODE", 0x9#4), ("INTENS", 0xA#4), ("SCANLIMIT", 0xB#4),
      ("SHUTDOWN", 0xC#4), ("DISPTEST", 0xF#4)], ∀ (n : Nat) (text : List Char), IsNumberText n text →
    assembleLine (lineText "wr".toList [p.1.toList, text]) =
      if n ≤ 255 then .ok (encode (.wrreg p.2 (BitVec.ofNat 8 n))) else .error .outOfRange) ∧
  (∀ (ns : List Nat) (texts : List (List Char)), List.Forall₂ IsNumberText ns texts →
    assembleLine (lineText "render".toList texts) =
      if ns.length ≠ 8 then .error .wrongOperandCount
      else if ∀ n ∈ ns, n ≤ 255 then .ok (encode (.render (Vector.ofFn fun r => BitVec.ofNat 8 (ns.getD r 0))))
      else .error .outOfRange) ∧
  (∀ (text comment : List Char), assembleLine (text ++ ';' :: comment) = assembleLine text) ∧
  (∀ (text : List Char) (ws : List CommandWord), assembleLine text = .ok ws ↔
    (readSource text = .ok none ∧ ws = []) ∨
    ∃ l, readSource text = .ok (some l) ∧ l.wf = true ∧ l.words = .ok ws)

/-! ### The Serial Link -/

/-- R46, whole: a pin write appends exactly one event, sets its line and changes nothing else, level change or not. -/
def Obligations.PinWriteIsOneEvent : Prop :=
  ∀ (b : Level) (s : State),
    pinWrite .cs b s = { s with cs := b, trace := s.trace ++ [.pin .cs b] } ∧
    pinWrite .clk b s = { s with clk := b, trace := s.trace ++ [.pin .clk b] } ∧
    pinWrite .din b s = { s with din := b, trace := s.trace ++ [.pin .din b] }

/-- R80, whole: SELECT. -/
def Obligations.SelectDrivesChipSelectLow : Prop :=
  (∀ (s : State), exec .select s = .next { s with cs := false, trace := s.trace ++ [.pin .cs false] }) ∧
  (∀ (s : State), LinesAgree s → s.cs = false → s.receiverAfter [.pin .cs false] = s.receiver) ∧
  (∀ (rest : List CommandWord), decode (0x1000#16 :: rest) = .ok (.select, rest)) ∧
  (∀ (cw : CommandWord) (rest : List CommandWord), opField cw = 0x1#4 → cw ≠ 0x1000#16 →
    decode (cw :: rest) = .error (.reserved cw))

/-- R81, whole: DESELECT, and how it closes the frame that is open. -/
def Obligations.DeselectDrivesChipSelectHigh : Prop :=
  (∀ (s : State), exec .deselect s = .next { s with cs := true, trace := s.trace ++ [.pin .cs true] }) ∧
  (∀ (s : State), LinesAgree s → s.cs = true → s.receiverAfter [.pin .cs true] = s.receiver) ∧
  (∀ (s : State), LinesAgree s → s.cs = false → (s.receiverAfter [.pin .cs true]).frames = s.receiver.frames ++
    [if s.receiver.bits.length = 16 then
      .frame (byteOfBits (s.receiver.bits.take 8)) (byteOfBits (s.receiver.bits.drop 8)) else .corrupt]) ∧
  (∀ (rest : List CommandWord), decode (0x2000#16 :: rest) = .ok (.deselect, rest)) ∧
  (∀ (cw : CommandWord) (rest : List CommandWord), opField cw = 0x2#4 → cw ≠ 0x2000#16 →
    decode (cw :: rest) = .error (.reserved cw))

/-- R82, whole: TXBYTE's 24 events, its post-state, and what the receiver makes of it when CS is high. -/
def Obligations.TransmitByteSendsItsBits : Prop :=
  (∀ (v : Byte) (s : State), exec (.txbyte v) s =
    .next { s with clk := true, din := v.getLsbD 0, trace := s.trace ++ txEvents v }) ∧
  (∀ (v : Byte), (txEvents v).length = 24) ∧
  (∀ (v : Byte) (s : State), LinesAgree s → s.cs = true →
    (s.receiverAfter (txEvents v)).frames = s.receiver.frames ++ List.replicate 8 .stray ∧
    ∀ a, (s.receiverAfter (txEvents v)).devreg.read a = none) ∧
  (∀ (v : Byte) (s : State), LinesAgree s → s.cs = false →
    (s.receiverAfter (txEvents v)).bits = s.receiver.bits ++
      [v.getLsbD 7, v.getLsbD 6, v.getLsbD 5, v.getLsbD 4, v.getLsbD 3, v.getLsbD 2, v.getLsbD 1, v.getLsbD 0]) ∧
  (∀ (v : Byte) (rest : List CommandWord), decode ((0x30#8 ++ v) :: rest) = .ok (.txbyte v, rest)) ∧
  (∀ (cw : CommandWord) (rest : List CommandWord), opField cw = 0x3#4 → aField cw ≠ 0 →
    decode (cw :: rest) = .error (.reserved cw))

/-- R84, whole: what a Serial Link command does is fixed by its operand; no cursor, no ROM, no wait. -/
def Obligations.LinkCommandsReadOnlyTheirOperand : Prop :=
  ∀ (i : Instr), isRawLink i = true →
    ∃ (es : List Event) (cs clk din : Option Level), waitCount es = 0 ∧ ∀ (s : State), exec i s =
      .next { s with cs := cs.getD s.cs, clk := clk.getD s.clk, din := din.getD s.din, trace := s.trace ++ es }

/-- R83, R56, R57: a raw transfer between SELECT and DESELECT is a frame exactly when it is two bytes long, and corrupts
the device's registers otherwise. The frame writes the register its whole address byte names, and an address R56 does not
list leaves every register UNKNOWN. -/
def Obligations.RawTransferIsAFrameOfTwoBytes : Prop :=
  ∀ (vs : List Byte) (s : State), LinesAgree s → s.cs = true → Ready s →
    ∃ t, runCommands ([.select] ++ vs.map .txbyte ++ [.deselect]) s = .next t ∧ t.cs = true ∧
      (∀ a d, vs = [a, d] → t.receiver.frames = s.receiver.frames ++ [.frame a d] ∧
        ∀ x, t.receiver.devreg.read x =
          if a ∈ [0x01#8, 0x02#8, 0x03#8, 0x04#8, 0x05#8, 0x06#8, 0x07#8, 0x08#8, 0x09#8, 0x0A#8, 0x0B#8, 0x0C#8, 0x0F#8]
          then (if x = a then some d else s.receiver.devreg.read x) else none) ∧
      (vs.length ≠ 2 → t.receiver.frames = s.receiver.frames ++ [.corrupt] ∧ ∀ a, t.receiver.devreg.read a = none)

/-! ### The Device Controller -/

/-- R90, whole: WRREG sends one frame; what the receiver makes of it with CS high and with CS low at entry. -/
def Obligations.WriteRegisterSendsOneFrame : Prop :=
  (∀ (a : RegId) (v : Byte) (s : State), exec (.wrreg a v) s = .next { s with
    cs := true, clk := true, din := v.getLsbD 0, trace := s.trace ++ frameEvents (a.zeroExtend 8) v }) ∧
  (∀ (a d : Byte), (frameEvents a d).length = 50) ∧
  (∀ (a : RegId) (v : Byte) (s : State), LinesAgree s → s.cs = true →
    (s.receiverAfter (frameEvents (a.zeroExtend 8) v)).frames = s.receiver.frames ++ [.frame (a.zeroExtend 8) v]) ∧
  (∀ (a : RegId) (v : Byte) (s : State), LinesAgree s → s.cs = false →
    (s.receiverAfter (frameEvents (a.zeroExtend 8) v)).frames = s.receiver.frames ++
      [if s.receiver.bits = [] then .frame (a.zeroExtend 8) v else .corrupt]) ∧
  (∀ (a : RegId) (v x : Byte) (s : State), LinesAgree s → s.cs = true →
    (s.receiverAfter (frameEvents (a.zeroExtend 8) v)).devreg.read x =
      if a ∈ [0x0#4, 0xD#4, 0xE#4] then none
      else if x = a.zeroExtend 8 then some v else s.receiver.devreg.read x) ∧
  (∀ (a : RegId) (v : Byte) (rest : List CommandWord), decode ((0x4#4 ++ a ++ v) :: rest) = .ok (.wrreg a v, rest))

/-- R72, whole: the address byte is `0000:A`; every frame the engine sends of its own has address bits 7:4 zero, and a
raw TXBYTE can send any byte. -/
def Obligations.AddressByteIsZeroExtended : Prop :=
  (∀ (a : RegId) (v : Byte) (s t : State), exec (.wrreg a v) s = .next t →
    t.trace = s.trace ++ frameEvents (0x0#4 ++ a) v) ∧
  (∀ (i : Instr) (s : State), ∀ f ∈ commandFrames i s, f.1.extractLsb' 4 4 = 0#4) ∧
  (∀ (v : Byte) (s : State), exec (.txbyte v) s =
    .next { s with clk := true, din := v.getLsbD 0, trace := s.trace ++ txEvents v })

/-- R91, R92: INIT's thirteen frames in the normative order, and the device registers after it. The data bytes of
registers 0x09, 0x0B and 0x0F are the spec's own (D12, from general knowledge): log 7. That these values enable the display
(`displayEnabled`; R58, G6) is general knowledge too: log 15. -/
def Obligations.InitSendsThirteenFramesInOrder : Prop :=
  (∀ (s : State), exec .init s = .next { s with
    cs := true, clk := true, din := false, trace := s.trace ++
      framesEvents [(0x09#8, 0x00#8), (0x0B#8, 0x07#8), (0x0A#8, s.build.intensity), (0x0C#8, 0x01#8),
        (0x0F#8, 0x00#8), (0x01#8, 0x00#8), (0x02#8, 0x00#8), (0x03#8, 0x00#8), (0x04#8, 0x00#8), (0x05#8, 0x00#8),
        (0x06#8, 0x00#8), (0x07#8, 0x00#8), (0x08#8, 0x00#8)] }) ∧
  (∀ (s : State), (framesEvents (commandFrames .init s)).length = 650) ∧
  (∀ (s t : State), LinesAgree s → s.cs = true → exec .init s = .next t →
    t.receiver.devreg.read 0x09#8 = some 0x00#8 ∧ t.receiver.devreg.read 0x0B#8 = some 0x07#8 ∧
    t.receiver.devreg.read 0x0A#8 = some s.build.intensity ∧ t.receiver.devreg.read 0x0C#8 = some 0x01#8 ∧
    t.receiver.devreg.read 0x0F#8 = some 0x00#8 ∧ (∀ row < 8, t.receiver.image row = some 0x00#8) ∧
    t.receiver.displayEnabled = true)

/-- R93: CLEAR's eight frames, the blank image, and its idempotence. The ascending order is the spec's own choice
(D25): log 22. -/
def Obligations.ClearBlanksTheRows : Prop :=
  (∀ (s : State), exec .clear s = .next { s with
    cs := true, clk := true, din := false, trace := s.trace ++
      framesEvents [(0x01#8, 0x00#8), (0x02#8, 0x00#8), (0x03#8, 0x00#8), (0x04#8, 0x00#8), (0x05#8, 0x00#8),
        (0x06#8, 0x00#8), (0x07#8, 0x00#8), (0x08#8, 0x00#8)] }) ∧
  (∀ (s : State), (framesEvents (commandFrames .clear s)).length = 400) ∧
  (∀ (s t : State) (x : Byte), LinesAgree s → s.cs = true → exec .clear s = .next t →
    t.receiver.devreg.read x = if 1 ≤ x.toNat ∧ x.toNat ≤ 8 then some 0x00#8 else s.receiver.devreg.read x) ∧
  (∀ (s t u : State) (x : Byte), LinesAgree s → s.cs = true → exec .clear s = .next t → exec .clear t = .next u →
    u.receiver.devreg.read x = t.receiver.devreg.read x)

/-- R94, whole: RENDER sends row `r` to register `r + 1`, in ascending row order, and the image is the rows. -/
def Obligations.RenderSendsItsRowsInOrder : Prop :=
  (∀ (rows : Vector Byte 8) (s : State), exec (.render rows) s = .next { s with
    cs := true, clk := true, din := rows[7].getLsbD 0, trace := s.trace ++
    framesEvents [(0x01#8, rows[0]), (0x02#8, rows[1]), (0x03#8, rows[2]), (0x04#8, rows[3]), (0x05#8, rows[4]),
      (0x06#8, rows[5]), (0x07#8, rows[6]), (0x08#8, rows[7])] }) ∧
  (∀ (rows : Vector Byte 8) (s : State), (framesEvents (commandFrames (.render rows) s)).length = 400) ∧
  (∀ (rows : Vector Byte 8) (s t : State), LinesAgree s → s.cs = true → exec (.render rows) s = .next t →
    (∀ r : Fin 8, t.receiver.devreg.read (BitVec.ofNat 8 (r.val + 1)) = some rows[r]) ∧
    t.receiver.shows rows = true) ∧
  (∀ (e1 e2 e3 e4 : CommandWord) (rest : List CommandWord),
    decode (0x7000#16 :: e1 :: e2 :: e3 :: e4 :: rest) = .ok (.render (rowsOfExtension e1 e2 e3 e4), rest)) ∧
  (∀ (ext : List CommandWord), ext.length < 4 → decode (0x7000#16 :: ext) = .error .truncated)

/-- R70: WRREG puts the same events into `TRACE` as SELECT, two TXBYTEs and DESELECT, and leaves the same state. -/
def Obligations.WriteRegisterIsTheRawSequence : Prop :=
  ∀ (a : RegId) (v : Byte) (s : State), ∃ s1 s2 s3 t,
    exec .select s = .next s1 ∧ exec (.txbyte (a.zeroExtend 8)) s1 = .next s2 ∧ exec (.txbyte v) s2 = .next s3 ∧
    exec .deselect s3 = .next t ∧ exec (.wrreg a v) s = .next t

/-- R93, 42_sequencer.md: CLEAR is RENDER of eight zero rows, and SHOW is RENDER of the glyph it clamps to. That CLEAR's
frames come in RENDER's ascending order is the spec's own choice (D25): log 22. -/
def Obligations.ClearAndShowAreRenders : Prop :=
  (∀ (s : State), exec .clear s = exec (.render (Vector.replicate 8 0x00#8)) s) ∧
  (∀ (v : Byte) (s : State), s.build.wf → exec (.showGlyph v) s =
    exec (.render (Vector.ofFn fun r => glyphByte s.build (clampIndex s.build v) r.val)) s)

/-- R41, R55, R58: what the LEDs show. After INIT and RENDER each LED is its row's bit, bit 7 leftmost. A WRREG that sets
display-test bit 0 turns every LED on. INIT's data bytes are log 7, and what lights an LED is general knowledge (G1, G3, G6):
log 15. -/
def Obligations.LedsShowTheRowsOrTheTest : Prop :=
  ∀ (s : State), LinesAgree s → s.cs = true →
    (∀ (rows : Vector Byte 8), ∃ t u, exec .init s = .next t ∧ exec (.render rows) t = .next u ∧
      ∀ row col : Fin 8, u.receiver.ledLit row col = some (rows[row].getLsbD (7 - col.val))) ∧
    (∀ (v : Byte), v.getLsbD 0 = true → ∃ t, exec (.wrreg 0xF#4 v) s = .next t ∧
      ∀ row col : Fin 8, t.receiver.ledLit row col = some true)

/-- R95: a controller or sequencer command started with CS high completes, sends exactly the frames of its rule with a
wait after them for TICK, gives the receiver one `Frame` each and nothing else, and ends with CS high; every address
is a recognised one unless WRREG names another. INIT's frames carry the data bytes of log 7 (D12), and CLEAR's come in the
order of log 22 (D25). -/
def Obligations.CommandsSendWellFormedFrames : Prop :=
  ∀ (i : Instr) (s : State), isRawLink i = false → s.build.wf → LinesAgree s → s.cs = true →
    ∃ t, exec i s = .next t ∧
      t.trace = s.trace ++ framesEvents (commandFrames i s) ++ (if i = .tick then [.wait Config.tickMs] else []) ∧
      t.receiver.frames = s.receiver.frames ++ asBusFrames (commandFrames i s) ∧ t.cs = true ∧
      (∀ f ∈ commandFrames i s, (∀ a v, i ≠ .wrreg a v) → recognised f.1 = true)

/-- R140: the events of each command, counted. -/
def Obligations.EventCountsAreThoseOfTheTable : Prop :=
  ∀ (i : Instr) (s : State), s.build.wf → ∃ t es, exec i s = .next t ∧ t.trace = s.trace ++ es ∧
    waitCount es = (eventCounts i).2 ∧ es.length = (eventCounts i).1 + (eventCounts i).2

/-! ### The Display Sequencer -/

/-- R100, whole: the clamp with its corners, and that SHOW and TICK use glyph 0 for an index out of range. -/
def Obligations.IndexesAreClamped : Prop :=
  (∀ (b : Build) (v : Byte), clampIndex b v = if v.toNat < b.glyphCount then v.toNat else 0) ∧
  (∀ (b : Build), b.wf → clampIndex b (BitVec.ofNat 8 (b.glyphCount - 1)) = b.glyphCount - 1 ∧
    clampIndex b (BitVec.ofNat 8 b.glyphCount) = 0 ∧ clampIndex b 255#8 = 0 ∧ clampIndex b 0#8 = 0) ∧
  (∀ (v : Byte) (s : State), s.build.glyphCount ≤ v.toNat → exec (.showGlyph v) s = exec (.showGlyph 0#8) s) ∧
  (∀ (s t : State), s.build.glyphCount ≤ s.cursor.toNat → exec .tick s = .next t →
    exec .tick { s with cursor := 0#8 } = .next { t with cursor := 0#8 })

/-- R101, the issue step: TICK renders glyph `clamp(CURSOR)`, requests the wait and waits; 401 events. -/
def Obligations.TickRendersThenWaits : Prop :=
  ∀ (s : State), s.build.wf →
    exec .tick s = .next { s with
      cs := true, clk := true, din := (glyphByte s.build (clampIndex s.build s.cursor) 7).getLsbD 0,
      phase := .waiting, trace := s.trace ++
        framesEvents (glyphFrames s.build (clampIndex s.build s.cursor)) ++ [.wait 1000] } ∧
    (framesEvents (glyphFrames s.build (clampIndex s.build s.cursor)) ++ [Event.wait 1000]).length = 401

/-- R101, the resume step, with its corners. When the service returns is the model's `waitReplies` (log 8), and the
index is found again from `CURSOR` (log 13). -/
def Obligations.TickResumesWithTheNextCursor : Prop :=
  ∀ (s : State) (later : List WaitReply), s.build.wf → s.refused = none → s.phase = .waiting →
    s.waitReplies = .after 0 :: later ∨ (s.waitReplies = [] ∧ later = []) →
    ∃ t, step s = .next t ∧
      t = { s with cursor := t.cursor, phase := .ready, cpos := s.cpos + 1, waitReplies := later } ∧
      t.cursor.toNat = (clampIndex s.build s.cursor + 1) % s.build.glyphCount ∧
      (s.cursor.toNat = s.build.glyphCount - 1 → t.cursor = 0#8) ∧
      (s.build.glyphCount = 1 → t.cursor = 0#8) ∧
      (s.build.glyphCount ≤ s.cursor.toNat → t.cursor.toNat = 1 % s.build.glyphCount)

/-- R102, whole: SHOW renders the glyph it clamps to; no wait, no cursor change, nothing read but the ROM. -/
def Obligations.ShowRendersTheClampedGlyph : Prop :=
  (∀ (v : Byte) (s : State), s.build.wf → exec (.showGlyph v) s = .next { s with
    cs := true, clk := true, din := (glyphByte s.build (clampIndex s.build v) 7).getLsbD 0,
    trace := s.trace ++ framesEvents (glyphFrames s.build (clampIndex s.build v)) }) ∧
  (∀ (b : Build) (i : Nat), (framesEvents (glyphFrames b i)).length = 400) ∧
  (∀ (v : Byte) (s : State), s.build.glyphCount ≤ v.toNat → exec (.showGlyph v) s = exec (.showGlyph 0#8) s) ∧
  (∀ (v : Byte) (rest : List CommandWord), decode ((0x90#8 ++ v) :: rest) = .ok (.showGlyph v, rest))

/-- R104.4: `k` TICKs in a stream whose service returns render glyphs `c`, `c+1`, ..., each mod `N`, and leave
`CURSOR = (c + k) mod N`. That the service returns at its first turn is the empty `waitReplies` (log 8). -/
def Obligations.TicksCycleThroughTheGlyphs : Prop :=
  ∀ (k : Nat) (s : State), EngineInv s → Ready s → s.waitReplies = [] →
    (∀ j < k, wordAt s.cmd (s.cpos + j) = some 0x8000#16) →
    ∃ t, runSteps (2 * k) s = .next t ∧ t.cursor.toNat = (s.cursor.toNat + k) % s.build.glyphCount ∧
      t.cpos = s.cpos + k ∧ Ready t ∧
      t.trace = s.trace ++ (List.range k).flatMap fun j =>
        framesEvents (glyphFrames s.build ((s.cursor.toNat + j) % s.build.glyphCount)) ++ [.wait 1000]

/-- R41, R43: the ROM holds exactly the addresses below `8*N`; a read beyond them is refused and shows nothing on the
bus. An out-of-range read needs a build without glyphs (log 21). -/
def Obligations.RomReadsExistExactlyBelowItsSize : Prop :=
  (∀ (s : State) (addr : Nat), s.build.wf → ((∃ b, romRead addr s = some b) ↔ addr < 8 * s.build.glyphCount)) ∧
  (∀ (s : State) (addr : Nat) (b : Byte), s.build.wf → (addr, b) ∈ s.build.rom → romRead addr s = some b) ∧
  (∀ (s : State) (v : Byte), s.build.glyphCount = 0 →
    exec (.showGlyph v) s = .next { s with refused := some (.romRange 0) } ∧
    exec .tick s = .next { s with refused := some (.romRange 0) })

/-! ### What commands leave alone -/

/-- R24, whole: the lines are outputs only. Two states that differ only in line levels do the same: each line ends equal
in both, or is left as it was in both. -/
def Obligations.LineLevelsAreNeverRead : Prop :=
  (∀ (i : Instr) (s t : State) (cs clk din : Level), exec i s = .next t →
    ∃ cs' clk' din', exec i { s with cs := cs, clk := clk, din := din } =
      .next { t with cs := cs', clk := clk', din := din' } ∧ LineIsDrivenOrKept s.cs cs t.cs cs' ∧
      LineIsDrivenOrKept s.clk clk t.clk clk' ∧ LineIsDrivenOrKept s.din din t.din din') ∧
  (∀ (s t : State) (cs clk din : Level), step s = .next t →
    ∃ cs' clk' din', step { s with cs := cs, clk := clk, din := din } =
      .next { t with cs := cs', clk := clk', din := din' } ∧ LineIsDrivenOrKept s.cs cs t.cs cs' ∧
      LineIsDrivenOrKept s.clk clk t.clk clk' ∧ LineIsDrivenOrKept s.din din t.din din') ∧
  (∀ (s : State) (f : Fault) (cs clk din : Level), step s = .fault f →
    step { s with cs := cs, clk := clk, din := din } = .fault f) ∧
  (∀ (s : State) (r : Refusal) (cs clk din : Level), step s = .refused r →
    step { s with cs := cs, clk := clk, din := din } = .refused r)

/-- R21 to R25, R28, R32: the frame of every command. It keeps the cursor, the position, the stream, the build, the
service and every byte of memory; only TICK changes the phase, only TICK and SHOW can be refused, and then they
change nothing else; SELECT and DESELECT leave CLK and DIN, TXBYTE leaves CS. -/
def Obligations.CommandsKeepWhatTheyDoNotWrite : Prop :=
  ∀ (i : Instr) (s t : State), exec i s = .next t →
    t.cursor = s.cursor ∧ t.cpos = s.cpos ∧ t.cmd = s.cmd ∧ t.build = s.build ∧ t.waitReplies = s.waitReplies ∧
    (∀ addr, romRead addr t = romRead addr s) ∧
    (∃ es, t.trace = s.trace ++ es) ∧
    (t.phase ≠ s.phase → i = .tick) ∧
    (t.refused ≠ s.refused → (i = .tick ∨ ∃ v, i = .showGlyph v) ∧ t = { s with refused := t.refused }) ∧
    (i = .select ∨ i = .deselect → t.clk = s.clk ∧ t.din = s.din) ∧
    (∀ v, i = .txbyte v → t.cs = s.cs)

/-- R42, whole: "No command writes it": every step leaves the ROM, and so every byte read, as it was. -/
def Obligations.GlyphRomIsNeverWritten : Prop :=
  ∀ (s t : State), step s = .next t → t.build.rom = s.build.rom ∧ ∀ addr, romRead addr t = romRead addr s

/-- R28: only TICK's resume step writes `CURSOR`, and it writes `(clamp(CURSOR) + 1) mod N`. The index is found again from
`CURSOR` at the resume step (log 13). -/
def Obligations.OnlyTheResumeStepWritesTheCursor : Prop :=
  ∀ (s t : State), s.build.wf → step s = .next t → t.cursor ≠ s.cursor →
    s.phase = .waiting ∧ t.phase = .ready ∧ t.cpos = s.cpos + 1 ∧
    t.cursor.toNat = (clampIndex s.build s.cursor + 1) % s.build.glyphCount

/-! ### The machine -/

/-- R79: when the words at `CPOS` decode to a command, a ready engine's step is that command, and `CPOS` moves past it
if the engine is still ready and nothing was refused (log 20). -/
def Obligations.StepRunsTheDecodedCommand : Prop :=
  ∀ (s : State) (i : Instr) (rest : List CommandWord), Ready s →
    decode (wordsFrom s.cmd s.cpos longestCommand) = .ok (i, rest) →
    step s = match exec i s with
      | .next t => .next (if t.phase = .ready ∧ t.refused = none then
          { t with cpos := t.cpos + (encode i).length } else t)
      | .fault f => .fault f
      | .refused r => .refused r

/-- R118: while the engine waits, a step drives no line, issues no event and either resumes the TICK or changes only
the service's schedule; a service that never returns hangs it. The schedule is the model's own field (log 8). -/
def Obligations.WaitingEngineDrivesNothing : Prop :=
  ∀ (s : State), s.refused = none → s.phase = .waiting → ∃ t, step s = .next t ∧
    t.cs = s.cs ∧ t.clk = s.clk ∧ t.din = s.din ∧ t.trace = s.trace ∧ t.refused = none ∧
    (t.phase = .waiting → t = { s with waitReplies := t.waitReplies }) ∧
    (∀ later, s.waitReplies = .never :: later → t = s)

/-- R111: a step that sets `REFUSED` changes nothing else, and a refused machine takes no further step (the outcome
that says so, and the record of the cause, are log 9). -/
def Obligations.RefusalStopsTheEngine : Prop :=
  (∀ (s t : State) (c : RefusalCause), step s = .next t → t.refused = some c → t = { s with refused := some c }) ∧
  (∀ (s : State) (c : RefusalCause), s.refused = some c → step s = .refused (.stopped c))

/-- R142, R79: the four ways a run stands, and what a step answers in each. That a waiting machine's step is a turn of the
service is log 8, that a refused machine's step answers a refusal is log 9, and the faults outside the stream are
log 10. -/
def Obligations.RunStatusTellsTheStep : Prop :=
  ∀ (s : State),
    ((∃ t, step s = .next t) ↔ s.status = .running ∨ s.status = .waiting) ∧
    (step s = .fault .endOfRun ↔ s.status = .normalEnd) ∧
    (step s = .fault .cposOutsideStream ↔ s.status = .outsideStream) ∧
    ((∃ r, step s = .refused r) ↔ s.status = .refusedStop)

/-- R33, R130: what reset leaves, of any build and stream, whatever the run it ends had reached; every device register
is then UNKNOWN. The reset step itself is outside `step` (log 16). -/
def Obligations.ResetSetsEveryElement : Prop :=
  ∀ (s : State) (replies : List WaitReply), externalReset s replies =
      { cs := true, clk := s.build.resetClk, din := s.build.resetDin, cursor := 0#8, phase := .ready, cpos := 0,
        trace := [], refused := none, cmd := s.cmd, build := s.build, waitReplies := replies } ∧
    ∀ a, (externalReset s replies).receiver.devreg.read a = none

/-- R130: a reset inside a command leaves the trace cut after some of its events, and the rest never occur (log 16). -/
def Obligations.ResetCutsTheCommandAnywhere : Prop :=
  ∀ (s t : State) (k : Nat), step s = .next t →
    ∃ done rest, abandonedTrace s k = s.trace ++ done ∧ t.trace = abandonedTrace s k ++ rest ∧
      done.length = min k (t.trace.length - s.trace.length)

/-- R131: after reset the engine runs INIT and then TICK for ever; the first TICK renders glyph 0. The last clause is of
every build and of every schedule in which no wait hangs (R118's fairness; the schedule is log 8): for every `k` the
run comes to the end of its `k`-th TICK, having sent INIT's frames and then the glyphs 0, 1, ..., each mod `N`. INIT's data
bytes are log 7. -/
def Obligations.BootStreamIsInitThenTicks : Prop :=
  (wordAt State.reset.cmd 0 = some 0x5000#16 ∧ (∀ k, wordAt State.reset.cmd (k + 1) = some 0x8000#16) ∧
    streamLength State.reset.cmd = none) ∧
  (∃ t u, step State.reset = .next t ∧ t.trace = framesEvents (commandFrames .init State.reset) ∧ t.cpos = 1 ∧
    step t = .next u ∧ u.phase = .waiting ∧
    u.trace = t.trace ++ framesEvents (glyphFrames State.reset.build 0) ++ [.wait 1000]) ∧
  ∀ (b : Build) (replies : List WaitReply) (k : Nat), b.wf → .never ∉ replies →
    ∃ n t, runSteps n (State.resetWith b Config.bootStream replies) = .next t ∧ Ready t ∧ t.cpos = 1 + k ∧
      t.cursor.toNat = k % b.glyphCount ∧
      t.trace = framesEvents (commandFrames .init (State.resetWith b Config.bootStream replies)) ++
        (List.range k).flatMap fun j => framesEvents (glyphFrames b (j % b.glyphCount)) ++ [.wait 1000]

/-- R28, R41, R47, R79, R101, R111: every step keeps the invariant of the machine. -/
def Obligations.EveryStepKeepsTheInvariant : Prop :=
  ∀ (s t : State), Inv s → step s = .next t → Inv t

/-- R33, R41: the invariant holds after reset, of every build in range and of the machine's own. -/
def Obligations.ResetMeetsTheInvariant : Prop :=
  (∀ (b : Build) (cmd : CommandStream) (replies : List WaitReply), b.wf → Inv (State.resetWith b cmd replies)) ∧
  Inv State.reset

/-- R33: "No frame the engine sends depends on `RESET_CLK` or `RESET_DIN`": it holds at reset and every step keeps it. -/
def Obligations.ResetLevelsNeverReachAFrame : Prop :=
  (∀ (b : Build) (cmd : CommandStream) (replies : List WaitReply),
    ResetLevelsUnseen (State.resetWith b cmd replies)) ∧
  (∀ (s t : State), ResetLevelsUnseen s → step s = .next t → ResetLevelsUnseen t)

/-- R139: a list of commands that keeps the frame contract, executed from a ready state with CS high with every TICK's wait
returning (R118's fairness, which `runCommands` builds in; log 8), is never refused and ends with CS high and
`CURSOR < N`. -/
def Obligations.ContractKeepsChipSelectHigh : Prop :=
  ∀ (is : List Instr) (s : State), EngineInv s → Ready s → s.cs = true → keepsContract is = true →
    ∃ t, runCommands is s = .next t ∧ EngineInv t ∧ Ready t ∧ t.cs = true

/-- R139 of the machine's own steps: where the words at `CPOS` are those of commands that keep the frame contract, and no
wait hangs (R118's fairness; the schedule is log 8), the run comes to the end of these words, unrefused, with CS high and
the invariant, so with `CURSOR < N`. -/
def Obligations.ContractStreamsRunToTheirEnd : Prop :=
  ∀ (is : List Instr) (s : State), Inv s → Ready s → s.cs = true → .never ∉ s.waitReplies → keepsContract is = true →
    (∀ j < (is.flatMap encode).length, wordAt s.cmd (s.cpos + j) = (is.flatMap encode)[j]?) →
    ∃ n t, runSteps n s = .next t ∧ Inv t ∧ Ready t ∧ t.cs = true ∧ t.cpos = s.cpos + (is.flatMap encode).length

/-- R79, R142: under the invariant `CPOS` is never beyond the stream, so the fault that says so (log 10) is not raised, and
a ready machine that finds no word has come to the normal end. -/
def Obligations.RunsStayInsideTheStream : Prop :=
  ∀ (s : State), Inv s → s.status ≠ .outsideStream ∧ step s ≠ .fault .cposOutsideStream ∧
    (Ready s → wordAt s.cmd s.cpos = none → s.status = .normalEnd)
end

