-- ==== Sys2Proof/Laws/Assembler.lean ====
section
/-!
SUPPORT. What the assembler makes of a line written with `lineText`, and of the numbers of `byteText` and `wordText`.
-/

namespace Sys2Proof

/-- A text that no separator of R68 cuts: no blank, no comma, no semicolon, and something in it. -/
abbrev PlainText (cs : List Char) : Prop := cs ≠ [] ∧ ∀ c ∈ cs, isBlank c = false ∧ c ≠ ',' ∧ c ≠ ';'

/-! ### Blanks and commas -/

theorem trimBlanks_of_ends {cs : List Char} (hh : ∀ c ∈ cs.head?, isBlank c = false)
    (hl : ∀ c ∈ cs.getLast?, isBlank c = false) : trimBlanks cs = cs := by
  have strip : ∀ ds : List Char, (∀ c ∈ ds.head?, isBlank c = false) → ds.dropWhile isBlank = ds := by
    intro ds h
    cases ds with
    | nil => rfl
    | cons d ds => simp [h d rfl]
  rw [trimBlanks, strip cs hh, strip cs.reverse (by rwa [List.head?_reverse]), List.reverse_reverse]

theorem trimBlanks_plain {cs : List Char} (h : PlainText cs) : trimBlanks cs = cs :=
  trimBlanks_of_ends (fun c hc => (h.2 c (List.mem_of_head? hc)).1) fun c hc => (h.2 c (List.mem_of_getLast? hc)).1

theorem trimBlanks_blank (cs : List Char) : trimBlanks (' ' :: cs) = trimBlanks cs := by simp [trimBlanks, isBlank]

/-- The mnemonic of a body is what stands before the first blank. -/
theorem span_blank {m rest : List Char} (hm : ∀ c ∈ m, isBlank c = false) :
    (m ++ ' ' :: rest).takeWhile (fun c => !isBlank c) = m ∧
    (m ++ ' ' :: rest).dropWhile (fun c => !isBlank c) = ' ' :: rest := by
  have hp : ∀ c ∈ m, (!isBlank c) = true := fun c hc => by rw [hm c hc]; rfl
  constructor
  · rw [List.takeWhile_append_of_pos hp]; simp [isBlank]
  · rw [List.dropWhile_append_of_pos hp]; simp [isBlank]

/-- The end of a list of operands is an operand's own character. -/
theorem getLast?_intercalate {ops : List (List Char)} (hne : ops ≠ []) (h : ∀ o ∈ ops, PlainText o) :
    ∃ c, ([','].intercalate ops).getLast? = some c ∧ isBlank c = false := by
  induction ops with
  | nil => exact absurd rfl hne
  | cons o ops ih =>
    cases ops with
    | nil =>
      obtain ⟨h1, h2⟩ := h o (by simp)
      exact ⟨o.getLast h1, by simp [List.getLast?_eq_getLast_of_ne_nil h1], (h2 _ (List.getLast_mem h1)).1⟩
    | cons o' ops =>
      obtain ⟨c, hc, hb⟩ := ih (by simp) fun q hq => h q (List.mem_cons_of_mem _ hq)
      exact ⟨c, by rw [List.intercalate_cons_cons, List.getLast?_append, hc]; rfl, hb⟩

theorem semicolon_not_mem_intercalate {ops : List (List Char)} (h : ∀ o ∈ ops, PlainText o) :
    ';' ∉ [','].intercalate ops := by
  induction ops with
  | nil => simp
  | cons o ops ih =>
    cases ops with
    | nil => simpa using fun hc => ((h o (by simp)).2 _ hc).2.2 rfl
    | cons o' ops =>
      rw [List.intercalate_cons_cons]
      simp only [List.mem_append, List.mem_singleton, not_or]
      exact ⟨⟨fun hc => ((h o (by simp)).2 _ hc).2.2 rfl, by decide⟩, ih fun q hq => h q (List.mem_cons_of_mem _ hq)⟩

/-- Operands written with commas between them are read back (R68). -/
theorem splitOperands_intercalate {ops : List (List Char)} (hne : ops ≠ []) (h : ∀ o ∈ ops, PlainText o) :
    splitOperands (' ' :: [','].intercalate ops) = ops := by
  cases ops with
  | nil => exact absurd rfl hne
  | cons o ops =>
    have ho := h o (by simp)
    have hcat : ' ' :: [','].intercalate (o :: ops) = [','].intercalate ((' ' :: o) :: ops) := by
      cases ops with
      | nil => simp
      | cons q qs => simp [List.intercalate_cons_cons]
    have htrim : (trimBlanks (' ' :: [','].intercalate (o :: ops))).isEmpty = false := by
      obtain ⟨c, hc, hb⟩ := getLast?_intercalate hne h
      have hhead : ∀ d ∈ ([','].intercalate (o :: ops)).head?, isBlank d = false := by
        intro d hd
        cases o with
        | nil => exact absurd rfl ho.1
        | cons a o => cases ops <;> simp [List.intercalate_cons_cons] at hd <;> exact hd ▸ (ho.2 a (by simp)).1
      rw [trimBlanks_blank, trimBlanks_of_ends hhead fun d hd => by rw [hc] at hd; cases hd; exact hb]
      cases he : [','].intercalate (o :: ops) with
      | nil => rw [he] at hc; cases hc
      | cons => rfl
    have hsplit : (' ' :: [','].intercalate (o :: ops)).splitOn ',' = (' ' :: o) :: ops := by
      rw [hcat]
      refine List.splitOn_intercalate ',' ?_ (List.cons_ne_nil _ _)
      intro l hl hc
      rcases List.mem_cons.1 hl with rfl | hl
      · exact (ho.2 ',' (by simpa using hc)).2.1 rfl
      · exact ((h l (List.mem_cons_of_mem _ hl)).2 ',' hc).2.1 rfl
    rw [splitOperands, htrim, if_neg (by simp), hsplit, List.map_cons, trimBlanks_blank, trimBlanks_plain ho]
    have hrest : ops.map trimBlanks = ops.map id :=
      List.map_congr_left fun q hq => trimBlanks_plain (h q (List.mem_cons_of_mem _ hq))
    rw [hrest, List.map_id]

/-! ### One line -/

/-- R68: a line written with `lineText` is read with its own mnemonic and its own operands. -/
theorem assembleLine_lineText {m : List Char} {ops : List (List Char)} (hm : PlainText m) (h : ∀ o ∈ ops, PlainText o) :
    assembleLine (lineText m ops) = match readLine m ops with
      | .ok l => l.words
      | .error e => .error e := by
  have keep : ∀ cs : List Char, ';' ∉ cs → withoutComment cs = cs := by
    intro cs hc
    rw [withoutComment, List.takeWhile_eq_self_iff]
    intro c hcs
    simp only [bne_iff_ne, ne_eq]
    rintro rfl
    exact hc hcs
  have hms : ';' ∉ m := fun hc => (hm.2 _ hc).2.2 rfl
  cases ops with
  | nil =>
    have ht : m.takeWhile (fun c => !isBlank c) = m := by
      rw [List.takeWhile_eq_self_iff]; exact fun c hc => by rw [(hm.2 c hc).1]; rfl
    have hd : m.dropWhile (fun c => !isBlank c) = [] := by
      rw [List.dropWhile_eq_nil_iff]; exact fun c hc => by rw [(hm.2 c hc).1]; rfl
    have he : m.isEmpty = false := by simpa using hm.1
    simp only [assembleLine, readSource, lineText, keep m hms, trimBlanks_plain hm, ht, hd, he, Bool.false_eq_true, if_false]
    change (match (match readLine m [] with | .ok l => .ok (some l) | .error e => .error e : Except AsmError _) with
      | .ok none => _ | .ok (some l) => _ | .error e => _) = _
    cases readLine m [] <;> rfl
  | cons o ops =>
    obtain ⟨c, hc, hb⟩ := getLast?_intercalate (ops := o :: ops) (by simp) h
    obtain ⟨ht, hd⟩ := span_blank (rest := [','].intercalate (o :: ops)) fun c hc => (hm.2 c hc).1
    have htrim : trimBlanks (m ++ ' ' :: [','].intercalate (o :: ops)) = m ++ ' ' :: [','].intercalate (o :: ops) := by
      apply trimBlanks_of_ends
      · intro d hd
        cases m with
        | nil => exact absurd rfl hm.1
        | cons a m => simp at hd; exact hd ▸ (hm.2 a (by simp)).1
      · intro d hd
        rw [List.getLast?_append, List.getLast?_cons, hc] at hd
        cases hd; exact hb
    have hk := keep (m ++ ' ' :: [','].intercalate (o :: ops)) (by simp [hms, semicolon_not_mem_intercalate h])
    have he : (m ++ ' ' :: [','].intercalate (o :: ops)).isEmpty = false := by simp
    simp only [assembleLine, readSource, lineText, hk, htrim, ht, hd,
      splitOperands_intercalate (List.cons_ne_nil o ops) h, he, Bool.false_eq_true, if_false]
    cases readLine m (o :: ops) <;> rfl

/-- The mnemonics of R68, and `.word`. -/
theorem mnemonic_plain {m : String} (h : m ∈ ["sel", "desel", "tx", "wr", "init", "clr", "render", "tick", "show", ".word"]) :
    PlainText m.toList := by
  simp only [List.mem_cons, List.not_mem_nil, or_false] at h
  rcases h with rfl | rfl | rfl | rfl | rfl | rfl | rfl | rfl | rfl | rfl <;> simp [PlainText, isBlank]

/-- The register names of R69 are read as their values. -/
theorem registerName_spec {p : String × Nat}
    (h : p ∈ [("ROW1", 0x1), ("ROW2", 0x2), ("ROW3", 0x3), ("ROW4", 0x4), ("ROW5", 0x5), ("ROW6", 0x6), ("ROW7", 0x7),
      ("ROW8", 0x8), ("DECODEMODE", 0x9), ("INTENS", 0xA), ("SCANLIMIT", 0xB), ("SHUTDOWN", 0xC), ("DISPTEST", 0xF)]) :
    PlainText p.1.toList ∧ readRegister p.1.toList = some p.2 := by
  simp only [List.mem_cons, List.not_mem_nil, or_false] at h
  rcases h with rfl | rfl | rfl | rfl | rfl | rfl | rfl | rfl | rfl | rfl | rfl | rfl | rfl <;>
    simp [PlainText, isBlank, readRegister, registerNames, List.lookup]

/-! ### Numbers -/

theorem hexDigit_spec (d : BitVec 4) : digitValue (hexDigit d) = some d.toNat ∧
    (isBlank (hexDigit d) = false ∧ hexDigit d ≠ ',' ∧ hexDigit d ≠ ';') := by revert d; decide

theorem byteText_plain (v : Byte) : PlainText (byteText v) := by
  refine ⟨by simp [byteText], fun c hc => ?_⟩
  simp only [byteText, List.mem_cons, List.not_mem_nil, or_false] at hc
  rcases hc with rfl | rfl | rfl | rfl
  · decide
  · decide
  all_goals exact (hexDigit_spec _).2

theorem wordText_plain (w : CommandWord) : PlainText (wordText w) := by
  refine ⟨by simp [wordText], fun c hc => ?_⟩
  simp only [wordText, List.mem_cons, List.not_mem_nil, or_false] at hc
  rcases hc with rfl | rfl | rfl | rfl | rfl | rfl
  · decide
  · decide
  all_goals exact (hexDigit_spec _).2

theorem readHex_byteText (v : Byte) : readHex (byteText v) = some v.toNat := by
  have lt (d : BitVec 4) : d.toNat < 16 := d.isLt
  simp only [byteText, readHex, readDigits, (hexDigit_spec _).1, lt, if_true, Option.some.injEq]
  simp only [BitVec.extractLsb'_toNat, Nat.shiftRight_eq_div_pow]
  have := v.isLt
  omega

theorem readHex_wordText (w : CommandWord) : readHex (wordText w) = some w.toNat := by
  have lt (d : BitVec 4) : d.toNat < 16 := d.isLt
  simp only [wordText, readHex, readDigits, (hexDigit_spec _).1, lt, if_true, Option.some.injEq]
  simp only [BitVec.extractLsb'_toNat, Nat.shiftRight_eq_div_pow]
  have := w.isLt
  omega

theorem readNumber_byteText (v : Byte) : readNumber (byteText v) = some v.toNat := by
  rw [readNumber, readHex_byteText]

/-- No name of R69 begins with a digit. -/
theorem readRegister_byteText (v : Byte) : readRegister (byteText v) = some v.toNat := by
  have : registerNames.lookup (byteText v) = none := by simp [registerNames, byteText, List.lookup]
  rw [readRegister, this, readNumber_byteText]

theorem readNumbers_byteText (vs : List Byte) : readNumbers (vs.map byteText) = some (vs.map BitVec.toNat) := by
  induction vs with
  | nil => rfl
  | cons v vs ih => simp [readNumbers, readNumber_byteText, ih]

/-! ### Numbers of any size -/

theorem readDigits_append (base acc : Nat) (xs ys : List Char) :
    readDigits base acc (xs ++ ys) = (readDigits base acc xs).bind fun n => readDigits base n ys := by
  induction xs generalizing acc with
  | nil => rfl
  | cons c xs ih =>
    simp only [List.cons_append, readDigits]
    cases digitValue c with
    | none => rfl
    | some d =>
      dsimp only
      split
      · exact ih _
      · rfl

theorem digitValue_digitChar {d : Nat} (h : d < 16) : digitValue d.digitChar = some d := by
  have all : ∀ d : Fin 16, digitValue (Nat.digitChar d.val) = some d.val := by decide
  exact all ⟨d, h⟩

/-- The digits of a number read back as the number, in base 10 and in base 16. -/
theorem readDigits_toDigits {base : Nat} (h1 : 1 < base) (h2 : base ≤ 16) (n : Nat) :
    readDigits base 0 (Nat.toDigits base n) = some n := by
  induction n using Nat.strongRecOn with
  | _ n ih =>
    by_cases hn : n < base
    · simp [Nat.toDigits_of_lt_base hn, readDigits, digitValue_digitChar (Nat.lt_of_lt_of_le hn h2), hn]
    · have hm : n % base < base := Nat.mod_lt _ (by omega)
      rw [Nat.toDigits_of_base_le h1 (by omega), readDigits_append, ih _ (Nat.div_lt_self (by omega) h1)]
      simp [readDigits, digitValue_digitChar (Nat.lt_of_lt_of_le hm h2), hm, Nat.div_add_mod]

/-- Every digit is a digit's character. -/
theorem mem_toDigits {base : Nat} (h1 : 1 < base) {n : Nat} {c : Char} (h : c ∈ Nat.toDigits base n) :
    ∃ d < base, c = d.digitChar := by
  induction n using Nat.strongRecOn with
  | _ n ih =>
    by_cases hn : n < base
    · rw [Nat.toDigits_of_lt_base hn] at h
      exact ⟨n, hn, by simpa using h⟩
    · rw [Nat.toDigits_of_base_le h1 (by omega), List.mem_append, List.mem_singleton] at h
      rcases h with h | h
      · exact ih _ (Nat.div_lt_self (by omega) h1) h
      · exact ⟨_, Nat.mod_lt _ (by omega), h⟩

theorem digitChar_plain {d : Nat} (h : d < 16) : d.digitChar ≠ 'x' ∧ d.digitChar.isUpper = false ∧
    (isBlank d.digitChar = false ∧ d.digitChar ≠ ',' ∧ d.digitChar ≠ ';') := by
  have all : ∀ d : Fin 16, (Nat.digitChar d.val) ≠ 'x' ∧ (Nat.digitChar d.val).isUpper = false ∧
    (isBlank (Nat.digitChar d.val) = false ∧ (Nat.digitChar d.val) ≠ ',' ∧ (Nat.digitChar d.val) ≠ ';') := by decide
  exact all ⟨d, h⟩

theorem readDigits_zeros (base k : Nat) (hb : 0 < base) (cs : List Char) :
    readDigits base 0 (List.replicate k '0' ++ cs) = readDigits base 0 cs := by
  induction k with
  | zero => rfl
  | succ k ih =>
    rw [List.replicate_succ, List.cons_append, readDigits, show digitValue '0' = some 0 from by decide]
    simpa [hb] using ih

/-- A hexadecimal number with leading zeros reads as the number. -/
theorem readHex_zeros (n k : Nat) :
    readHex ('0' :: 'x' :: (List.replicate k '0' ++ Nat.toDigits 16 n)) = some n := by
  have h : readDigits 16 0 (List.replicate k '0' ++ Nat.toDigits 16 n) = some n := by
    rw [readDigits_zeros 16 k (by decide), readDigits_toDigits (by decide) (by decide)]
  cases hc : List.replicate k '0' ++ Nat.toDigits 16 n with
  | nil => simp at hc
  | cons d ds => rw [hc] at h; exact h

theorem isNumberText_plain {n : Nat} {text : List Char} (h : IsNumberText n text) : PlainText text := by
  rcases h with rfl | ⟨k, rfl⟩
  · refine ⟨Nat.toDigits_ne_nil, fun c hc => ?_⟩
    obtain ⟨d, hd, rfl⟩ := mem_toDigits (by decide) hc
    exact (digitChar_plain (by omega)).2.2
  · refine ⟨by simp, fun c hc => ?_⟩
    simp only [List.mem_cons, List.mem_append, List.mem_replicate] at hc
    rcases hc with rfl | rfl | ⟨_, rfl⟩ | hc
    · decide
    · decide
    · decide
    · obtain ⟨d, hd, rfl⟩ := mem_toDigits (by decide) hc
      exact (digitChar_plain hd).2.2

/-- R68: "Numbers are decimal or `0x` hexadecimal", of any size. -/
theorem readNumber_of_isNumberText {n : Nat} {text : List Char} (h : IsNumberText n text) :
    readNumber text = some n := by
  rcases h with rfl | ⟨k, rfl⟩
  · have hx : ∀ c ∈ Nat.toDigits 10 n, c ≠ 'x' := by
      intro c hc
      obtain ⟨d, hd, rfl⟩ := mem_toDigits (by decide) hc
      exact (digitChar_plain (by omega)).1
    have hh : readHex (Nat.toDigits 10 n) = none := by
      unfold readHex
      split
      · rename_i hc
        exact absurd rfl (hx 'x' (by rw [hc]; simp))
      · rfl
    have he : (Nat.toDigits 10 n).isEmpty = false := by simp
    simp only [readNumber, hh, he, readDigits_toDigits (base := 10) (by decide) (by decide)]
    rfl
  · rw [readNumber, readHex_zeros]

/-- No name of R69 is a number. -/
theorem readRegister_of_isNumberText {n : Nat} {text : List Char} (h : IsNumberText n text) :
    readRegister text = some n := by
  have hup : ∀ c ∈ text.head?, c.isUpper = false := by
    rcases h with rfl | ⟨k, rfl⟩
    · intro c hc
      obtain ⟨d, hd, rfl⟩ := mem_toDigits (by decide) (List.mem_of_head? hc)
      exact (digitChar_plain (by omega)).2.1
    · simp
  have hl : registerNames.lookup text = none := by
    cases text with
    | nil => rfl
    | cons c cs =>
      have hc := hup c rfl
      have ne : ∀ d : Char, d.isUpper = true → (c == d) = false := by
        intro d hd
        rw [beq_eq_false_iff_ne]
        rintro rfl
        rw [hc] at hd; cases hd
      simp [registerNames, List.lookup, ne 'R' (by decide), ne 'D' (by decide), ne 'I' (by decide), ne 'S' (by decide)]
  rw [readRegister, hl, readNumber_of_isNumberText h]

theorem readNumbers_of_isNumberText {ns : List Nat} {texts : List (List Char)}
    (h : List.Forall₂ IsNumberText ns texts) : readNumbers texts = some ns := by
  induction h with
  | nil => rfl
  | cons h _ ih => simp [readNumbers, readNumber_of_isNumberText h, ih]

end Sys2Proof
end

