-- ==== Sys2Proof/Laws/Decode.lean ====
section
/-!
SUPPORT. The opcode map field by field (30_encoding.md R61, R64, R66): the row of a word from its `OP`, `A` and `V`.
-/

namespace Sys2Proof

variable (op op' : BitVec 4) (a a' : RegId) (v v' : Byte)

/-! ### A word is its fields -/

/-- Every bit of a word comes from one field (R61). -/
theorem getLsbD_commandWord (i : Nat) : (commandWord op a v).getLsbD i =
    if i < 8 then v.getLsbD i else if i - 8 < 4 then a.getLsbD (i - 8) else op.getLsbD (i - 8 - 4) := by
  refine (BitVec.getLsbD_append (x := op ++ a) (y := v) (i := i)).trans ?_
  split
  · rfl
  · exact BitVec.getLsbD_append (x := op) (y := a) (i := i - 8)

@[simp] theorem opField_commandWord : opField (commandWord op a v) = op := by
  apply BitVec.eq_of_getLsbD_eq
  intro i hi
  simp only [opField, BitVec.getLsbD_extractLsb', getLsbD_commandWord, hi, decide_true, Bool.true_and]
  rw [if_neg (by omega), if_neg (by omega), show 12 + i - 8 - 4 = i by omega]

@[simp] theorem aField_commandWord : aField (commandWord op a v) = a := by
  apply BitVec.eq_of_getLsbD_eq
  intro i hi
  simp [aField, getLsbD_commandWord, hi]

@[simp] theorem vField_commandWord : vField (commandWord op a v) = v := by
  apply BitVec.eq_of_getLsbD_eq
  intro i hi
  simp [vField, getLsbD_commandWord, hi]

/-- A word is made of its three fields (R61). -/
theorem commandWord_fields (cw : CommandWord) : commandWord (opField cw) (aField cw) (vField cw) = cw := by
  apply BitVec.eq_of_getLsbD_eq
  intro i hi
  simp only [getLsbD_commandWord, opField, aField, vField, BitVec.getLsbD_extractLsb']
  split
  · simp [*]
  · split
    · simp only [*, decide_true, Bool.true_and]; rw [show 8 + (i - 8) = i by omega]
    · have : i - 8 - 4 < 4 := by omega
      simp only [*, decide_true, Bool.true_and]; rw [show 12 + (i - 8 - 4) = i by omega]

variable {op op' a a' v v'} in
theorem commandWord_inj : commandWord op a v = commandWord op' a' v' ↔ op = op' ∧ a = a' ∧ v = v' := by
  constructor
  · intro h
    exact ⟨by simpa using congrArg opField h, by simpa using congrArg aField h, by simpa using congrArg vField h⟩
  · rintro ⟨rfl, rfl, rfl⟩; rfl

theorem commandWord_and :
    commandWord op a v &&& commandWord op' a' v' = commandWord (op &&& op') (a &&& a') (v &&& v') := by
  apply BitVec.eq_of_getLsbD_eq
  intro i hi
  simp only [getLsbD_commandWord, BitVec.getLsbD_and]
  split
  · rfl
  · split <;> rfl

/-! ### The rows -/

/-- A row accepts a word field by field (R64). -/
theorem accepts_commandWord (row : OpcodeRow) :
    row.accepts (commandWord op a v) = (op &&& opField row.mask == opField row.pattern &&
      (a &&& aField row.mask == aField row.pattern && v &&& vField row.mask == vField row.pattern)) := by
  rw [Bool.eq_iff_iff]
  simp only [OpcodeRow.accepts, Bool.and_eq_true, beq_iff_eq]
  conv_lhs => rw [← commandWord_fields row.mask, ← commandWord_fields row.pattern, commandWord_and]
  exact commandWord_inj

/-- The row of a word, from its fields (R64): the condition on `A` and `V` is that of R66. -/
theorem findRow_commandWord : findRow (commandWord op a v) =
    if op = 0x1#4 then (if a = 0 ∧ v = 0 then some ⟨.select, 0x1000#16, 0xFFFF#16, 1⟩ else none)
    else if op = 0x2#4 then (if a = 0 ∧ v = 0 then some ⟨.deselect, 0x2000#16, 0xFFFF#16, 1⟩ else none)
    else if op = 0x3#4 then (if a = 0 then some ⟨.txbyte, 0x3000#16, 0xFF00#16, 1⟩ else none)
    else if op = 0x4#4 then some ⟨.wrreg, 0x4000#16, 0xF000#16, 1⟩
    else if op = 0x5#4 then (if a = 0 ∧ v = 0 then some ⟨.init, 0x5000#16, 0xFFFF#16, 1⟩ else none)
    else if op = 0x6#4 then (if a = 0 ∧ v = 0 then some ⟨.clear, 0x6000#16, 0xFFFF#16, 1⟩ else none)
    else if op = 0x7#4 then (if a = 0 ∧ v = 0 then some ⟨.render, 0x7000#16, 0xFFFF#16, 5⟩ else none)
    else if op = 0x8#4 then (if a = 0 ∧ v = 0 then some ⟨.tick, 0x8000#16, 0xFFFF#16, 1⟩ else none)
    else if op = 0x9#4 then (if a = 0 then some ⟨.showGlyph, 0x9000#16, 0xFF00#16, 1⟩ else none)
    else none := by
  have all : ∀ op : BitVec 4, op ∈ [0#4, 1#4, 2#4, 3#4, 4#4, 5#4, 6#4, 7#4, 8#4, 9#4, 10#4, 11#4, 12#4, 13#4, 14#4,
    15#4] := by decide
  have hv (v : Byte) : v &&& 255#8 = v := BitVec.and_allOnes
  have ha (a : RegId) : a &&& 15#4 = a := BitVec.and_allOnes
  have ba : (a == 0#4) = decide (a = 0#4) := rfl
  have bv : (v == 0#8) = decide (v = 0#8) := rfl
  have hop := all op
  simp only [List.mem_cons, List.not_mem_nil, or_false] at hop
  rcases hop with rfl | rfl | rfl | rfl | rfl | rfl | rfl | rfl | rfl | rfl | rfl | rfl | rfl | rfl | rfl | rfl <;>
    simp [findRow, opcodeMap, List.find?_cons, accepts_commandWord, opField, aField, vField, ha, hv,
      ba, bv] <;>
    (by_cases h : a = 0#4 <;> by_cases h' : v = 0#8 <;> simp [h, h'])

end Sys2Proof
end

