-- ==== Sys2Proof/Laws/State.lean ====
section
/-!
SUPPORT. One lemma per field for every named update of the state, each true by `rfl`.
-/

namespace Sys2Proof.Machine

variable (s : State) (l : Line) (b : Level) (e : Event) (c : RefusalCause) (n : Nat)

/-! ### `setLine` -/

@[simp] theorem setLine_cs_cs : (s.setLine .cs b).cs = b := rfl
@[simp] theorem setLine_cs_clk : (s.setLine .cs b).clk = s.clk := rfl
@[simp] theorem setLine_cs_din : (s.setLine .cs b).din = s.din := rfl
@[simp] theorem setLine_clk_cs : (s.setLine .clk b).cs = s.cs := rfl
@[simp] theorem setLine_clk_clk : (s.setLine .clk b).clk = b := rfl
@[simp] theorem setLine_clk_din : (s.setLine .clk b).din = s.din := rfl
@[simp] theorem setLine_din_cs : (s.setLine .din b).cs = s.cs := rfl
@[simp] theorem setLine_din_clk : (s.setLine .din b).clk = s.clk := rfl
@[simp] theorem setLine_din_din : (s.setLine .din b).din = b := rfl
@[simp] theorem setLine_cursor : (s.setLine l b).cursor = s.cursor := by cases l <;> rfl
@[simp] theorem setLine_phase : (s.setLine l b).phase = s.phase := by cases l <;> rfl
@[simp] theorem setLine_cpos : (s.setLine l b).cpos = s.cpos := by cases l <;> rfl
@[simp] theorem setLine_trace : (s.setLine l b).trace = s.trace := by cases l <;> rfl
@[simp] theorem setLine_refused : (s.setLine l b).refused = s.refused := by cases l <;> rfl
@[simp] theorem setLine_cmd : (s.setLine l b).cmd = s.cmd := by cases l <;> rfl
@[simp] theorem setLine_build : (s.setLine l b).build = s.build := by cases l <;> rfl
@[simp] theorem setLine_waitReplies : (s.setLine l b).waitReplies = s.waitReplies := by cases l <;> rfl

/-! ### `record` -/

@[simp] theorem record_cs : (s.record e).cs = s.cs := rfl
@[simp] theorem record_clk : (s.record e).clk = s.clk := rfl
@[simp] theorem record_din : (s.record e).din = s.din := rfl
@[simp] theorem record_cursor : (s.record e).cursor = s.cursor := rfl
@[simp] theorem record_phase : (s.record e).phase = s.phase := rfl
@[simp] theorem record_cpos : (s.record e).cpos = s.cpos := rfl
@[simp] theorem record_trace : (s.record e).trace = s.trace ++ [e] := rfl
@[simp] theorem record_refused : (s.record e).refused = s.refused := rfl
@[simp] theorem record_cmd : (s.record e).cmd = s.cmd := rfl
@[simp] theorem record_build : (s.record e).build = s.build := rfl
@[simp] theorem record_waitReplies : (s.record e).waitReplies = s.waitReplies := rfl

/-! ### `refuse` -/

@[simp] theorem refuse_cs : (refuse c s).cs = s.cs := rfl
@[simp] theorem refuse_clk : (refuse c s).clk = s.clk := rfl
@[simp] theorem refuse_din : (refuse c s).din = s.din := rfl
@[simp] theorem refuse_cursor : (refuse c s).cursor = s.cursor := rfl
@[simp] theorem refuse_phase : (refuse c s).phase = s.phase := rfl
@[simp] theorem refuse_cpos : (refuse c s).cpos = s.cpos := rfl
@[simp] theorem refuse_trace : (refuse c s).trace = s.trace := rfl
@[simp] theorem refuse_refused : (refuse c s).refused = some c := rfl
@[simp] theorem refuse_cmd : (refuse c s).cmd = s.cmd := rfl
@[simp] theorem refuse_build : (refuse c s).build = s.build := rfl
@[simp] theorem refuse_waitReplies : (refuse c s).waitReplies = s.waitReplies := rfl

/-! ### `waitMs` -/

@[simp] theorem waitMs_cs : (waitMs n s).cs = s.cs := rfl
@[simp] theorem waitMs_clk : (waitMs n s).clk = s.clk := rfl
@[simp] theorem waitMs_din : (waitMs n s).din = s.din := rfl
@[simp] theorem waitMs_cursor : (waitMs n s).cursor = s.cursor := rfl
@[simp] theorem waitMs_phase : (waitMs n s).phase = .waiting := rfl
@[simp] theorem waitMs_cpos : (waitMs n s).cpos = s.cpos := rfl
@[simp] theorem waitMs_trace : (waitMs n s).trace = s.trace ++ [.wait n] := rfl
@[simp] theorem waitMs_refused : (waitMs n s).refused = s.refused := rfl
@[simp] theorem waitMs_cmd : (waitMs n s).cmd = s.cmd := rfl
@[simp] theorem waitMs_build : (waitMs n s).build = s.build := rfl
@[simp] theorem waitMs_waitReplies : (waitMs n s).waitReplies = s.waitReplies := rfl

/-! ### `resumeTick` -/

@[simp] theorem resumeTick_cs : (resumeTick s).cs = s.cs := rfl
@[simp] theorem resumeTick_clk : (resumeTick s).clk = s.clk := rfl
@[simp] theorem resumeTick_din : (resumeTick s).din = s.din := rfl
@[simp] theorem resumeTick_cursor : (resumeTick s).cursor = nextCursor s.build s.cursor := rfl
@[simp] theorem resumeTick_phase : (resumeTick s).phase = .ready := rfl
@[simp] theorem resumeTick_cpos : (resumeTick s).cpos = s.cpos + 1 := rfl
@[simp] theorem resumeTick_trace : (resumeTick s).trace = s.trace := rfl
@[simp] theorem resumeTick_refused : (resumeTick s).refused = s.refused := rfl
@[simp] theorem resumeTick_cmd : (resumeTick s).cmd = s.cmd := rfl
@[simp] theorem resumeTick_build : (resumeTick s).build = s.build := rfl
@[simp] theorem resumeTick_waitReplies : (resumeTick s).waitReplies = s.waitReplies := rfl

/-! ### `finishCommand` -/

@[simp] theorem finishCommand_cs : (finishCommand n s).cs = s.cs := by unfold finishCommand; split <;> rfl
@[simp] theorem finishCommand_clk : (finishCommand n s).clk = s.clk := by unfold finishCommand; split <;> rfl
@[simp] theorem finishCommand_din : (finishCommand n s).din = s.din := by unfold finishCommand; split <;> rfl
@[simp] theorem finishCommand_cursor : (finishCommand n s).cursor = s.cursor := by
  unfold finishCommand; split <;> rfl
@[simp] theorem finishCommand_phase : (finishCommand n s).phase = s.phase := by unfold finishCommand; split <;> rfl
@[simp] theorem finishCommand_trace : (finishCommand n s).trace = s.trace := by unfold finishCommand; split <;> rfl
@[simp] theorem finishCommand_refused : (finishCommand n s).refused = s.refused := by
  unfold finishCommand; split <;> rfl
@[simp] theorem finishCommand_cmd : (finishCommand n s).cmd = s.cmd := by unfold finishCommand; split <;> rfl
@[simp] theorem finishCommand_build : (finishCommand n s).build = s.build := by unfold finishCommand; split <;> rfl
@[simp] theorem finishCommand_waitReplies : (finishCommand n s).waitReplies = s.waitReplies := by
  unfold finishCommand; split <;> rfl

end Sys2Proof.Machine
end

