-- ==== Sys2Proof/Laws/Ops.lean ====
section
/-!
SUPPORT. What each shared operation does, once: callers cite these and do not unfold the operation.
-/

namespace Sys2Proof.Machine

/-! ### The wire -/

/-- Everything a byte on the wire does (R82). -/
theorem txByte_eq (v : Byte) (s : State) :
    txByte v s = { s with clk := true, din := v.getLsbD 0, trace := s.trace ++ txEvents v } := by
  simp [txByte, msbFirst, txBit, pinWrite, State.setLine, State.record, txEvents]

/-- Everything one frame does (R73, R90). -/
theorem sendFrame_eq (a d : Byte) (s : State) :
    sendFrame a d s =
      { s with cs := true, clk := true, din := d.getLsbD 0, trace := s.trace ++ frameEvents a d } := by
  simp [sendFrame, txByte_eq, pinWrite, State.setLine, State.record, frameEvents]

theorem sendFrames_nil (s : State) : sendFrames [] s = s := rfl

theorem sendFrames_cons (f : Byte × Byte) (fs : List (Byte × Byte)) (s : State) :
    sendFrames (f :: fs) s = sendFrames fs (sendFrame f.1 f.2 s) := rfl

theorem framesEvents_cons (f : Byte × Byte) (fs : List (Byte × Byte)) :
    framesEvents (f :: fs) = frameEvents f.1 f.2 ++ framesEvents fs := rfl

/-- Everything a non-empty list of frames does: the last one says what the lines hold (R95). -/
theorem sendFrames_eq (fs : List (Byte × Byte)) (a d : Byte) (s : State) :
    sendFrames (fs ++ [(a, d)]) s =
      { s with cs := true, clk := true, din := d.getLsbD 0, trace := s.trace ++ framesEvents (fs ++ [(a, d)]) } := by
  induction fs generalizing s with
  | nil => simp [sendFrames_cons, sendFrames_nil, sendFrame_eq, framesEvents]
  | cons f fs ih => simp [sendFrames_cons, ih, sendFrame_eq, framesEvents_cons]

/-! ### Indexes and the glyph ROM -/

/-- R104.2: no index outside `[0, N)` is ever used. -/
theorem clampIndex_lt {b : Build} (h : 1 ≤ b.glyphCount) (v : Byte) : clampIndex b v < b.glyphCount := by
  unfold clampIndex; split <;> omega

theorem clampIndex_of_lt {b : Build} {v : Byte} (h : v.toNat < b.glyphCount) : clampIndex b v = v.toNat := by
  simp [clampIndex, h]

/-- A ROM in canonical form lists every one of its addresses. -/
theorem read_isSome {n : Nat} {rom : List Host.Cell} (h : Memory.wf n rom) {addr : Nat} (ha : addr < 8 * n) :
    (Memory.read rom addr).isSome = true := by
  have hm : addr ∈ rom.map Prod.fst := by rw [h]; exact List.mem_range.2 ha
  obtain ⟨c, hc, rfl⟩ := List.mem_map.1 hm
  rw [Memory.read, List.lookup_isSome_iff]
  exact ⟨c, hc, by simp⟩

/-- Reading one byte of a glyph of the table (R41). -/
theorem romRead_glyph {s : State} (h : s.build.wf) {i r : Nat} (hi : i < s.build.glyphCount) (hr : r < 8) :
    romRead (8 * i + r) s = some (glyphByte s.build i r) := by
  have ha : 8 * i + r < 8 * s.build.glyphCount := by omega
  obtain ⟨b, hb⟩ := Option.isSome_iff_exists.1 (read_isSome h.2.2 ha)
  simp [romRead, ha, glyphByte, hb]

theorem readRows_ok {s : State} (h : s.build.wf) {i : Nat} (hi : i < s.build.glyphCount) :
    ∀ rs : List Nat, (∀ r ∈ rs, r < 8) → readRows s i rs = .ok (rs.map (glyphByte s.build i))
  | [], _ => rfl
  | r :: rs, hr => by
    simp [readRows, romRead_glyph h hi (hr r (by simp)),
      readRows_ok h hi rs fun x hx => hr x (by simp [hx])]

/-- Reading a glyph of the table succeeds (R43: an out-of-range address is never generated). -/
theorem readGlyph_ok {s : State} (h : s.build.wf) {i : Nat} (hi : i < s.build.glyphCount) :
    readGlyph s i = .ok ((List.range 8).map (glyphByte s.build i)) :=
  readRows_ok h hi _ fun _ hr => List.mem_range.1 hr

theorem renderGlyph_ok {s : State} (h : s.build.wf) {i : Nat} (hi : i < s.build.glyphCount) :
    renderGlyph i s = .ok (sendFrames (glyphFrames s.build i) s) := by
  simp only [renderGlyph, readGlyph_ok h hi]
  rfl

/-- A ROM built in the layout of R41 is in canonical form. -/
theorem romOfTable_wf (n : Nat) (row : Nat → Nat → Byte) : Memory.wf n (romOfTable n row) := by
  simp [Memory.wf, romOfTable, Function.comp_def]

theorem build_ofMode_wf (m : GlyphMode) : (Build.ofMode m).wf := by
  cases m <;> exact ⟨by decide, by decide, romOfTable_wf _ _⟩

/-! ### The cursor -/

theorem nextCursor_toNat {b : Build} (h : b.wf) (c : Byte) :
    (nextCursor b c).toNat = (clampIndex b c + 1) % b.glyphCount := by
  have := Nat.mod_lt (clampIndex b c + 1) (show 0 < b.glyphCount from h.1)
  have := h.2.1
  simp only [nextCursor, BitVec.toNat_ofNat]
  exact Nat.mod_eq_of_lt (by omega)

/-- R101: `CURSOR` never leaves `[0, N)`. -/
theorem nextCursor_lt {b : Build} (h : b.wf) (c : Byte) : (nextCursor b c).toNat < b.glyphCount := by
  rw [nextCursor_toNat h]; exact Nat.mod_lt _ h.1

/-! ### The stream -/

/-- The boot stream is INIT and then TICK forever (R131). -/
theorem wordAt_bootStream_succ (k : Nat) : wordAt Config.bootStream (k + 1) = some 0x8000#16 := by
  simp [wordAt, Config.bootStream, Nat.mod_one]

/-- After the end of a stream comes nothing more. -/
theorem wordAt_none_mono {c : CommandStream} {k j : Nat} (h : wordAt c k = none) (hj : k ≤ j) : wordAt c j = none := by
  unfold wordAt at *
  cases hh : c.head[k]? with
  | some w => simp [hh] at h
  | none =>
    have hk : c.head.length ≤ k := by simpa using hh
    have hj' : c.head[j]? = none := by simp; omega
    have hl : c.loop = [] := by
      by_contra hne
      have := Nat.mod_lt (k - c.head.length) (List.length_pos_iff.2 hne)
      simp [hh] at h
      omega
    simp [hj', hl]

/-- A finite stream has a word at exactly the positions below its length. -/
theorem wordAt_isSome_iff {c : CommandStream} {n : Nat} (h : streamLength c = some n) (k : Nat) :
    (wordAt c k).isSome = true ↔ k < n := by
  unfold streamLength at h
  split at h
  · rename_i hl
    have hl : c.loop = [] := by simpa using hl
    cases h
    unfold wordAt
    cases hh : c.head[k]? with
    | some w =>
      have := (List.getElem?_eq_some_iff.1 hh).1
      simp [this]
    | none =>
      have : c.head.length ≤ k := by simpa using hh
      simp [hl]; omega
  · cases h

/-- The words from a position are the word there and the words from the next, if there is one. -/
theorem wordsFrom_succ (c : CommandStream) (k n : Nat) : wordsFrom c k (n + 1) =
    match wordAt c k with
    | none => []
    | some w => w :: wordsFrom c (k + 1) n := by
  unfold wordsFrom
  rw [List.range_succ_eq_map, List.filterMap_cons, List.filterMap_map]
  cases h : wordAt c k with
  | some w => simp [Nat.add_comm, Nat.add_left_comm]
  | none =>
    simp only [List.filterMap_eq_nil_iff]
    exact fun j _ => wordAt_none_mono h (by simp)

end Sys2Proof.Machine
end

