-- ==== Sys2Proof/Laws/PerInstr.lean ====
section
/-!
SUPPORT. Statements for all commands, one lemma per constructor.
-/

namespace Sys2Proof.Laws.WordCount

/-- 30_encoding.md R60: a command is at least one word and at most five. -/
def Statement (i : Instr) : Prop := 1 ≤ (encode i).length ∧ (encode i).length ≤ longestCommand

theorem select : Statement .select := by simp [Statement, encode, longestCommand]
theorem deselect : Statement .deselect := by simp [Statement, encode, longestCommand]
theorem txbyte (v : Byte) : Statement (.txbyte v) := by simp [Statement, encode, longestCommand]
theorem wrreg (a : RegId) (v : Byte) : Statement (.wrreg a v) := by simp [Statement, encode, longestCommand]
theorem init : Statement .init := by simp [Statement, encode, longestCommand]
theorem clear : Statement .clear := by simp [Statement, encode, longestCommand]
theorem render (rows : Vector Byte 8) : Statement (.render rows) := by simp [Statement, encode, longestCommand]
theorem tick : Statement .tick := by simp [Statement, encode, longestCommand]
theorem showGlyph (v : Byte) : Statement (.showGlyph v) := by simp [Statement, encode, longestCommand]

end Sys2Proof.Laws.WordCount
end

