-- ==== Sys2Proof/Laws/Receiver.lean ====
section
/-!
SUPPORT. What the receiver view makes of the events the engine issues (20_memory.md R53 to R58).
-/

namespace Sys2Proof.Machine

/-- The receiver after some more events. -/
abbrev Receiver.after (r : Receiver) (es : List Event) : Receiver := es.foldl Receiver.onEvent r

theorem receiverView_append (clk din : Level) (tr es : List Event) :
    receiverView clk din (tr ++ es) = (receiverView clk din tr).after es := by
  simp [receiverView]

/-! ### Single events -/

@[simp] theorem onEvent_wait (r : Receiver) (n : Nat) : r.onEvent (.wait n) = r := rfl

@[simp] theorem onEvent_din (r : Receiver) (b : Level) : r.onEvent (.pin .din b) = { r with din := b } := rfl

@[simp] theorem applyFrame_isOpen (r : Receiver) (a d : Byte) : (r.applyFrame a d).isOpen = r.isOpen := by
  unfold Receiver.applyFrame; split <;> rfl

@[simp] theorem applyFrame_frames (r : Receiver) (a d : Byte) : (r.applyFrame a d).frames = r.frames := by
  unfold Receiver.applyFrame; split <;> rfl

@[simp] theorem applyFrame_clk (r : Receiver) (a d : Byte) : (r.applyFrame a d).clk = r.clk := by
  unfold Receiver.applyFrame; split <;> rfl

@[simp] theorem applyFrame_din (r : Receiver) (a d : Byte) : (r.applyFrame a d).din = r.din := by
  unfold Receiver.applyFrame; split <;> rfl

@[simp] theorem closeFrame_isOpen (r : Receiver) : r.closeFrame.isOpen = false := rfl

@[simp] theorem closeFrame_bits (r : Receiver) : r.closeFrame.bits = [] := rfl

@[simp] theorem closeFrame_clk (r : Receiver) : r.closeFrame.clk = r.clk := by
  unfold Receiver.closeFrame; split <;> simp [Receiver.log, Receiver.havoc]

@[simp] theorem closeFrame_din (r : Receiver) : r.closeFrame.din = r.din := by
  unfold Receiver.closeFrame; split <;> simp [Receiver.log, Receiver.havoc]

/-- A frame is open exactly while CS is low: every CS falling edge opens one and every rising edge closes it. -/
theorem isOpen_after (es : List Event) (r : Receiver) (h : r.isOpen = !r.cs) :
    (r.after es).isOpen = !(r.after es).cs := by
  induction es generalizing r with
  | nil => exact h
  | cons e es ih =>
    apply ih
    cases e with
    | wait n => exact h
    | pin l b =>
      cases l with
      | din => exact h
      | clk =>
        unfold Receiver.onEvent
        dsimp only
        split
        · unfold Receiver.sample; split <;> simpa [Receiver.log, Receiver.havoc] using h
        · exact h
      | cs => cases hc : r.cs <;> cases b <;> simp_all [Receiver.onEvent]

theorem receiverView_isOpen (clk din : Level) (tr : List Event) :
    (receiverView clk din tr).isOpen = !(receiverView clk din tr).cs :=
  isOpen_after tr _ rfl

/-! ### Bytes -/

/-- One bit on the wire while CS is low: it is sampled (R53, R135). -/
theorem after_bit_low (r : Receiver) (b : Level) (h : r.cs = false) :
    r.after [.pin .clk false, .pin .din b, .pin .clk true] =
      { r with clk := true, din := b, bits := r.bits ++ [b] } := by
  simp [Receiver.onEvent, Receiver.sample, h]

/-- One bit on the wire while CS is high: a stray edge (R57). -/
theorem after_bit_high (r : Receiver) (b : Level) (h : r.cs = true) :
    r.after [.pin .clk false, .pin .din b, .pin .clk true] =
      { r with clk := true, din := b, frames := r.frames ++ [.stray], devreg := DevReg.unknown } := by
  simp [Receiver.onEvent, Receiver.sample, Receiver.log, Receiver.havoc, h]

theorem after_append (r : Receiver) (es fs : List Event) : r.after (es ++ fs) = (r.after es).after fs := by
  simp [Receiver.after]

theorem txEvents_eq (v : Byte) : txEvents v =
    (msbFirst v).flatMap fun b => [.pin .clk false, .pin .din b, .pin .clk true] := rfl

/-- A byte sent while CS is low: its eight bits are sampled, bit 7 first (R45, R53). -/
theorem after_txEvents_low (r : Receiver) (v : Byte) (h : r.cs = false) :
    r.after (txEvents v) = { r with clk := true, din := v.getLsbD 0, bits := r.bits ++ msbFirst v } := by
  simp only [txEvents, msbFirst, List.flatMap_cons, List.flatMap_nil, List.append_nil, List.map_cons, List.map_nil,
    after_append]
  simp [after_bit_low, h, -List.foldl_cons]

/-- A byte sent while CS is high: eight stray edges (R82, R57). -/
theorem after_txEvents_high (r : Receiver) (v : Byte) (h : r.cs = true) :
    r.after (txEvents v) =
      { r with clk := true, din := v.getLsbD 0, frames := r.frames ++ List.replicate 8 .stray,
               devreg := DevReg.unknown } := by
  simp only [txEvents, List.flatMap_cons, List.flatMap_nil, List.append_nil, after_append]
  simp [after_bit_high, h, -List.foldl_cons, List.replicate]

@[simp] theorem msbFirst_length (v : Byte) : (msbFirst v).length = 8 := rfl

/-- The receiver reads back the byte that was sent (R45, R54). -/
theorem byteOfBits_msbFirst (v : Byte) : byteOfBits (msbFirst v) = v := by
  revert v; decide +kernel

/-! ### Frames -/

/-- A CS falling edge opens a frame (R53). -/
theorem onEvent_select (r : Receiver) (h : r.cs = true) :
    r.onEvent (.pin .cs false) = { r with cs := false, bits := [], isOpen := true } := by
  simp [Receiver.onEvent, h]

/-- A CS level write that makes no transition changes nothing (R53). -/
theorem onEvent_cs_same (r : Receiver) : r.onEvent (.pin .cs r.cs) = r := by
  cases h : r.cs <;> simp [Receiver.onEvent, h] <;> simp [← h]

/-- A CS rising edge with the bits of two bytes sampled: a well-formed frame (R53, R54). -/
theorem onEvent_deselect_frame (r : Receiver) (a d : Byte) (h : r.cs = false) (ho : r.isOpen = true)
    (hb : r.bits = msbFirst a ++ msbFirst d) :
    r.onEvent (.pin .cs true) =
      { (r.log (.frame a d)).applyFrame a d with cs := true, bits := [], isOpen := false } := by
  have ha : List.take 8 r.bits = msbFirst a := by rw [hb]; exact List.take_left' rfl
  have hd : List.drop 8 r.bits = msbFirst d := by rw [hb]; exact List.drop_left' rfl
  have hl : r.bits.length = 16 := by rw [hb]; rfl
  simp [Receiver.onEvent, h, Receiver.closeFrame, ho, hl, ha, hd, byteOfBits_msbFirst]

/-- A CS rising edge with another number of bits: a corrupt frame (R53, R57). -/
theorem onEvent_deselect_corrupt (r : Receiver) (h : r.cs = false) (hb : r.bits.length ≠ 16) :
    r.onEvent (.pin .cs true) =
      { r with cs := true, bits := [], isOpen := false, frames := r.frames ++ [.corrupt],
               devreg := DevReg.unknown } := by
  simp [Receiver.onEvent, h, Receiver.closeFrame, hb, Receiver.log, Receiver.havoc]

/-- What one frame's events make of the receiver's registers and frames when CS was high (R95). -/
theorem after_frameEvents (r : Receiver) (a d : Byte) (h : r.cs = true) :
    r.after (frameEvents a d) =
      { (r.log (.frame a d)).applyFrame a d with
        cs := true, clk := true, din := d.getLsbD 0, bits := [], isOpen := false } := by
  simp only [frameEvents, after_append]
  have h1 : r.after [.pin .cs false] = { r with cs := false, bits := [], isOpen := true } := onEvent_select r h
  have h2 := after_txEvents_low { r with cs := false, bits := [], isOpen := true } a rfl
  have h3 := after_txEvents_low
    { r with cs := false, clk := true, din := a.getLsbD 0, bits := msbFirst a, isOpen := true } d rfl
  have h4 := onEvent_deselect_frame
    { r with cs := false, clk := true, din := d.getLsbD 0, bits := msbFirst a ++ msbFirst d, isOpen := true }
    a d rfl rfl rfl
  rw [h1, h2]
  simp only [List.nil_append]
  rw [h3]
  refine h4.trans ?_
  unfold Receiver.applyFrame
  split <;> rfl

/-- The receiver after a list of frames when CS was high: one entry of `FRAMES` each, in order (R95). -/
theorem after_framesEvents (fs : List (Byte × Byte)) (r : Receiver) (h : r.cs = true) :
    (r.after (framesEvents fs)).cs = true ∧
    (r.after (framesEvents fs)).frames = r.frames ++ asBusFrames fs ∧
    (r.after (framesEvents fs)).devreg = (fs.foldl (fun q f => q.applyFrame f.1 f.2) r).devreg := by
  have key : ∀ (fs : List (Byte × Byte)) (r q : Receiver), r.cs = true → r.devreg = q.devreg →
      (r.after (framesEvents fs)).cs = true ∧
      (r.after (framesEvents fs)).frames = r.frames ++ asBusFrames fs ∧
      (r.after (framesEvents fs)).devreg = (fs.foldl (fun q f => q.applyFrame f.1 f.2) q).devreg := by
    intro fs
    induction fs with
    | nil => intro r q h hq; simp [framesEvents, asBusFrames, h, hq]
    | cons f fs ih =>
      intro r q h hq
      rw [framesEvents_cons, after_append, after_frameEvents r f.1 f.2 h]
      have := ih { (r.log (.frame f.1 f.2)).applyFrame f.1 f.2 with
        cs := true, clk := true, din := f.2.getLsbD 0, bits := [], isOpen := false } (q.applyFrame f.1 f.2) rfl
        (by unfold Receiver.applyFrame; split <;> simp [Receiver.log, Receiver.havoc, hq])
      simpa [asBusFrames, Receiver.log, List.append_assoc] using this
  exact key fs r r h rfl

/-! ### Registers -/

/-- `DEVREG[a] <- d` and every other entry unchanged (R56). -/
theorem read_applyFrame (r : Receiver) {a d : Byte} (h : recognised a = true) (x : Byte) :
    (r.applyFrame a d).devreg.read x = if x = a then some d else r.devreg.read x := by
  have ha : a.toNat < 16 := by revert h; revert a; decide +kernel
  simp only [Receiver.applyFrame, h, if_true, DevReg.read, Vector.getElem?_setIfInBounds, ha]
  by_cases hx : x = a
  · simp [hx]
  · have : a.toNat ≠ x.toNat := fun e => hx (BitVec.eq_of_toNat_eq e.symm)
    simp [hx, this]

@[simp] theorem read_unknown (x : Byte) : DevReg.unknown.read x = none := by
  by_cases h : x.toNat < 16 <;> simp [DevReg.read, DevReg.unknown, h]

end Sys2Proof.Machine
end

