-- ==== Sys2Proof/Laws/Step.lean ====
section
/-!
SUPPORT. What a command and a step can do, once (40_link.md R79): every claim about a next state starts from these.
-/

namespace Sys2Proof.Machine

/-- Every command answers a next state: the engine raises no exception (R110). -/
theorem exec_next (i : Instr) (s : State) : ∃ t, exec i s = .next t := by cases i <;> exact ⟨_, rfl⟩

/-- Everything frames can change: the lines and the end of the trace. -/
theorem sendFrames_shape (fs : List (Byte × Byte)) (s : State) :
    ∃ cs clk din es, sendFrames fs s = { s with cs := cs, clk := clk, din := din, trace := s.trace ++ es } := by
  induction fs generalizing s with
  | nil => exact ⟨s.cs, s.clk, s.din, [], by simp [sendFrames_nil]⟩
  | cons f fs ih =>
    obtain ⟨cs, clk, din, es, h⟩ := ih (sendFrame f.1 f.2 s)
    exact ⟨cs, clk, din, frameEvents f.1 f.2 ++ es, by rw [sendFrames_cons, h, sendFrame_eq]; simp⟩

theorem renderGlyph_cases (i : Nat) (s : State) :
    (∃ c, renderGlyph i s = .error c) ∨ (∃ fs, renderGlyph i s = .ok (sendFrames fs s)) := by
  unfold renderGlyph
  split
  · exact .inr ⟨_, rfl⟩
  · exact .inl ⟨_, rfl⟩

/-- Everything a command can change: the lines, the end of the trace, and, for TICK and SHOW, the phase and the
refusal mark. -/
theorem exec_shape {i : Instr} {s t : State} (h : exec i s = .next t) :
    ∃ cs clk din phase refused es, t = { s with
      cs := cs, clk := clk, din := din, phase := phase, refused := refused, trace := s.trace ++ es } := by
  have frames : ∀ fs, t = sendFrames fs s → ∃ cs clk din phase refused es, t = { s with
      cs := cs, clk := clk, din := din, phase := phase, refused := refused, trace := s.trace ++ es } := by
    rintro fs rfl
    obtain ⟨cs, clk, din, es, h⟩ := sendFrames_shape fs s
    exact ⟨cs, clk, din, s.phase, s.refused, es, h⟩
  cases i with
  | select => cases h; exact ⟨false, s.clk, s.din, s.phase, s.refused, _, rfl⟩
  | deselect => cases h; exact ⟨true, s.clk, s.din, s.phase, s.refused, _, rfl⟩
  | txbyte v => cases h; exact ⟨s.cs, _, _, s.phase, s.refused, _, txByte_eq v s⟩
  | wrreg a v => cases h; exact ⟨_, _, _, s.phase, s.refused, _, sendFrame_eq _ v s⟩
  | init => cases h; exact frames _ rfl
  | clear => cases h; exact frames _ rfl
  | render rows => cases h; exact frames _ rfl
  | tick =>
    cases h
    rcases renderGlyph_cases (clampIndex s.build s.cursor) s with ⟨c, hc⟩ | ⟨fs, hf⟩
    · exact ⟨s.cs, s.clk, s.din, s.phase, some c, [], by simp [hc, Except.map, orRefuse, refuse]⟩
    · obtain ⟨cs, clk, din, es, h⟩ := sendFrames_shape fs s
      exact ⟨cs, clk, din, .waiting, s.refused, es ++ [.wait Config.tickMs], by
        simp [hf, Except.map, orRefuse, h, waitMs, State.record]⟩
  | showGlyph v =>
    cases h
    rcases renderGlyph_cases (clampIndex s.build v) s with ⟨c, hc⟩ | ⟨fs, hf⟩
    · exact ⟨s.cs, s.clk, s.din, s.phase, some c, [], by simp [hc, orRefuse, refuse]⟩
    · exact frames fs (by simp [hf, orRefuse])

/-- One turn of the service: the tick resumes, or only the schedule changes (R118). -/
theorem serviceTurn_cases (s : State) :
    (∃ rs, serviceTurn s = resumeTick { s with waitReplies := rs }) ∨
    (∃ rs, serviceTurn s = { s with waitReplies := rs }) := by
  unfold serviceTurn
  split
  · exact .inl ⟨s.waitReplies, rfl⟩
  · exact .inl ⟨_, rfl⟩
  · exact .inr ⟨_, rfl⟩
  · exact .inr ⟨s.waitReplies, rfl⟩

/-- The turn in which the service returns: the first entry is due, or there is none (R118; log 8). -/
theorem serviceTurn_returns {s : State} {later : List WaitReply}
    (h : s.waitReplies = .after 0 :: later ∨ (s.waitReplies = [] ∧ later = [])) :
    serviceTurn s = resumeTick { s with waitReplies := later } := by
  obtain ⟨_, _, _, _, _, _, _, _, _, _, replies⟩ := s
  rcases h with h | ⟨h, rfl⟩ <;> (dsimp only at h; subst h; rfl)

/-! ### The three kinds of step -/

theorem step_of_refused {s : State} {c : RefusalCause} (h : s.refused = some c) : step s = .refused (.stopped c) := by
  simp only [step, h]

theorem step_of_waiting {s : State} (hr : s.refused = none) (hp : s.phase = .waiting) :
    step s = .next (serviceTurn s) := by
  simp only [step, hr, hp]

theorem step_of_ready {s : State} (h : Ready s) :
    step s = match fetchCommand s with
      | .stop f => .fault f
      | .refusal c => .next (refuse c s)
      | .command i len => afterExec len (exec i s) := by
  simp only [step, h.1, h.2]
  all_goals (cases fetchCommand s <;> rfl)

/-- Everything a step can do (R79, R111, R118). -/
theorem step_cases {s t : State} (h : step s = .next t) :
    s.refused = none ∧
    ((s.phase = .waiting ∧ t = serviceTurn s) ∨
     (s.phase = .ready ∧ ∃ c, fetchCommand s = .refusal c ∧ t = refuse c s) ∨
     (s.phase = .ready ∧ ∃ i len u, fetchCommand s = .command i len ∧ exec i s = .next u ∧
       t = finishCommand len u)) := by
  unfold step at h
  cases hr : s.refused with
  | some c => simp [hr] at h
  | none =>
    refine ⟨rfl, ?_⟩
    simp only [hr] at h
    cases hp : s.phase with
    | waiting =>
      simp only [hp, Host.Outcome.next.injEq] at h
      exact .inl ⟨rfl, h.symm⟩
    | ready =>
      simp only [hp] at h
      cases hf : fetchCommand s with
      | stop f => simp [hf] at h
      | refusal c =>
        simp only [hf, Host.Outcome.next.injEq] at h
        exact .inr (.inl ⟨rfl, c, rfl, h.symm⟩)
      | command i len =>
        obtain ⟨u, hu⟩ := exec_next i s
        simp only [hf, hu, afterExec, Host.Outcome.next.injEq] at h
        exact .inr (.inr ⟨rfl, i, len, u, rfl, hu, h.symm⟩)

/-- A run of `m + n` steps is a run of `m` and then one of `n`. -/
theorem runSteps_add {m n : Nat} {s t : State} (h : runSteps m s = .next t) : runSteps (m + n) s = runSteps n t := by
  induction m generalizing s with
  | zero => cases h; rw [Nat.zero_add]
  | succ m ih =>
    rw [Nat.succ_add]
    simp only [runSteps] at h ⊢
    cases hs : step s with
    | next u => rw [hs] at h; exact ih h
    | fault f => rw [hs] at h; cases h
    | refused r => rw [hs] at h; cases h

/-- No step writes the build, so the glyph ROM keeps its canonical form (R25, R42). -/
theorem step_keeps_romWf {s t : State} (h : step s = .next t) (hw : Memory.wf s.build.glyphCount s.build.rom) :
    Memory.wf t.build.glyphCount t.build.rom := by
  have hb : t.build = s.build := by
    obtain ⟨_, ⟨_, rfl⟩ | ⟨_, c, _, rfl⟩ | ⟨_, i, len, u, _, hu, rfl⟩⟩ := step_cases h
    · rcases serviceTurn_cases s with ⟨rs, e⟩ | ⟨rs, e⟩ <;> simp [e]
    · rfl
    · obtain ⟨_, _, _, _, _, _, rfl⟩ := exec_shape hu
      simp
  rw [hb]; exact hw

/-- Reset's memory has the canonical form, whatever the mode. -/
theorem reset_romWf : Memory.wf State.reset.build.glyphCount State.reset.build.rom :=
  (build_ofMode_wf Config.mode).2.2

end Sys2Proof.Machine
end

