-- ==== Sys2Proof/Tests/Slice0.lean ====
section
/-!
SUPPORT. The model's own tests: expected values from 95_test_vectors.md (the vector is named in each comment), the
ill-formed terms WellFormed refuses, and a witness for the hypotheses of every statement that has some.
-/

namespace Sys2Proof.Tests

open Sys2Proof Sys2Proof.Machine

/-! ### Fixtures (95_test_vectors.md, "Notation and fixtures") -/

/-- The build of the vectors: `n` glyphs of the test ROM `TROM` (`G[i][r] = 8*i + r`), `INTENSITY = 0x0F`, and
`RESET_CLK = RESET_DIN = 0`. -/
def troBuild (n : Nat) : Build where
  glyphCount := n
  rom := romOfTable n fun i r => BitVec.ofNat 8 (8 * i + r)
  intensity := 0x0F#8
  resetClk := false
  resetDin := false

/-- Reset with a finite stream and `n` glyphs of `TROM`. -/
def start (n : Nat) (words : List CommandWord) : State :=
  State.resetWith (troBuild n) { head := words, loop := [] } []

/-- The next state of an outcome. -/
def nextOf : Host.Outcome State Fault Refusal → Option State
  | .next t => some t
  | .fault _ => none
  | .refused _ => none

/-- The state after `k` steps. -/
def run (k : Nat) (s : State) : Option State := nextOf (runSteps k s)

/-- The decoded command, if any. -/
def instrOf : Except DecodeError (Instr × List CommandWord) → Option Instr
  | .ok (i, _) => some i
  | .error _ => none

/-- The decoder's refusal, if any. -/
def errorOf : Except DecodeError (Instr × List CommandWord) → Option DecodeError
  | .ok _ => none
  | .error e => some e

/-- The assembled words, if any. -/
def wordsOf : Except AsmError (List CommandWord) → Option (List CommandWord)
  | .ok ws => some ws
  | .error _ => none

/-- `FRAMES` after a run of `k` steps. -/
def framesAfter (k : Nat) (s : State) : Option (List BusFrame) := (run k s).map fun t => t.receiver.frames

abbrev S0 : Event := .pin .cs false
abbrev S1 : Event := .pin .cs true
abbrev C0 : Event := .pin .clk false
abbrev C1 : Event := .pin .clk true
abbrev D0 : Event := .pin .din false
abbrev D1 : Event := .pin .din true

/-! ### Well-formedness: one ill-formed term for each check -/

theorem test_wf_byte_above_255 : (AsmLine.tx 256).wf = false ∧ (AsmLine.tx 255).wf = true := by decide
theorem test_wf_register_above_15 : (AsmLine.wr 16 0).wf = false ∧ (AsmLine.wr 15 0).wf = true := by decide
theorem test_wf_data_above_255 : (AsmLine.wr 0 256).wf = false := by decide
theorem test_wf_seven_rows : (AsmLine.render [0, 0, 0, 0, 0, 0, 0]).wf = false := by decide
theorem test_wf_row_above_255 : (AsmLine.render [0, 0, 0, 256, 0, 0, 0, 0]).wf = false := by decide
theorem test_wf_index_above_255 : (AsmLine.showGlyph 256).wf = false := by decide
theorem test_wf_word_above_16_bits : (AsmLine.word 0x10000).wf = false ∧ (AsmLine.word 0xFFFF).wf = true := by decide
theorem test_wf_no_glyph : ¬ (troBuild 0).wf := by decide
theorem test_wf_256_glyphs : ¬ ({ troBuild 1 with glyphCount := 256 } : Build).wf := by decide
theorem test_wf_rom_with_a_hole : ¬ ({ troBuild 1 with rom := (troBuild 1).rom.eraseIdx 3 } : Build).wf := by decide
theorem test_wf_build : (troBuild 1).wf ∧ (troBuild 10).wf := by decide

/-! ### Decoding (section 2.1): every constructor from a word written out by hand -/

theorem test_decode_select : instrOf (decode [0x1000#16]) = some .select := by decide
theorem test_decode_deselect : instrOf (decode [0x2000#16]) = some .deselect := by decide
theorem test_decode_txbyte : instrOf (decode [0x30A5#16]) = some (.txbyte 0xA5#8) := by decide
theorem test_decode_wrreg : instrOf (decode [0x4C01#16]) = some (.wrreg 0xC#4 0x01#8) := by decide
theorem test_decode_init : instrOf (decode [0x5000#16]) = some .init := by decide
theorem test_decode_clear : instrOf (decode [0x6000#16]) = some .clear := by decide
theorem test_decode_render : instrOf (decode [0x7000#16, 0x3C42#16, 0x4242#16, 0x4242#16, 0x423C#16]) =
    some (.render #v[0x3C#8, 0x42#8, 0x42#8, 0x42#8, 0x42#8, 0x42#8, 0x42#8, 0x3C#8]) := by decide
theorem test_decode_tick : instrOf (decode [0x8000#16]) = some .tick := by decide
theorem test_decode_show : instrOf (decode [0x90C8#16]) = some (.showGlyph 200#8) := by decide
theorem test_decode_reserved : [0x0000#16, 0xA000#16, 0xF123#16, 0x1001#16, 0x2100#16, 0x5001#16, 0x6010#16, 0x7001#16,
    0x8001#16, 0x3100#16, 0x9100#16].map (fun w => errorOf (decode [w])) =
    [0x0000#16, 0xA000#16, 0xF123#16, 0x1001#16, 0x2100#16, 0x5001#16, 0x6010#16, 0x7001#16, 0x8001#16, 0x3100#16,
    0x9100#16].map (fun w => some (.reserved w)) := by decide
theorem test_decode_truncated : errorOf (decode [0x7000#16, 0x1234#16]) = some .truncated := by decide
theorem test_decode_bytes : instrOf (decodeBytes [0x4C#8, 0x01#8]) = some (.wrreg 0xC#4 0x01#8) ∧
    errorOf (decodeBytes [0x4C#8]) = some .halfWord := by decide
theorem test_table_word : decodeTableWord 16 0x90C8 = some (.showGlyph 200#8) ∧
    decodeTableWord 80 0x423C_4242_4242_3C42_7000 =
      some (.render #v[0x3C#8, 0x42#8, 0x42#8, 0x42#8, 0x42#8, 0x42#8, 0x42#8, 0x3C#8]) ∧
    decodeTableWord 16 0x0000 = none := by decide

/-! ### The assembler (R68, R69): lines of P2 and P5 -/

theorem test_asm_wr : wordsOf (assembleLine ['w', 'r', ' ', 'D', 'I', 'S', 'P', 'T', 'E', 'S', 'T', ',', ' ', '0']) =
    some [0x4F00#16] := by decide
theorem test_asm_tx_comment : wordsOf (assembleLine ['t', 'x', ' ', ' ', '0', 'x', '0', 'C', ' ', ';', ' ', 't']) =
    some [0x300C#16] := by decide
theorem test_asm_word : wordsOf (assembleLine ['.', 'w', 'o', 'r', 'd', ' ', '0', 'x', '0', '0', '0', '0']) =
    some [0x0000#16] := by decide
theorem test_asm_rejects_256 : wordsOf (assembleLine ['t', 'x', ' ', '2', '5', '6']) = none := by decide

/-! ### The Serial Link (section 2.2) -/

/-- T-LNK-1. -/
theorem test_select : (run 1 (start 10 [0x1000#16])).map (fun t => (t.trace, t.cs, t.cpos)) =
    some ([S0], false, 1) := by decide
/-- T-LNK-2. -/
theorem test_deselect : (run 1 (start 10 [0x2000#16])).map (fun t => (t.trace, t.cs, t.receiver.frames)) =
    some ([S1], true, []) := by decide
/-- T-LNK-7. -/
theorem test_txbyte_a5 : (run 1 (start 10 [0x30A5#16])).map (fun t => (t.trace, t.clk, t.din)) =
    some ([C0, D1, C1, C0, D0, C1, C0, D1, C1, C0, D0, C1, C0, D0, C1, C0, D1, C1, C0, D0, C1, C0, D1, C1],
      true, true) := by decide
/-- T-RCV-2. -/
theorem test_txbyte_stray : framesAfter 1 (start 10 [0x300C#16]) = some (List.replicate 8 .stray) := by decide
/-- T-RCV-1. -/
theorem test_receiver_corrupt : framesAfter 3 (start 10 [0x1000#16, 0x3001#16, 0x2000#16]) = some [.corrupt] := by
  decide
/-- T-RCV-7: an unrecognised address havocs. -/
theorem test_receiver_unrecognised :
    (run 4 (start 10 [0x1000#16, 0x301C#16, 0x3001#16, 0x2000#16])).map (fun t =>
      (t.receiver.frames, t.receiver.devreg.read 0x1C#8)) = some ([.frame 0x1C#8 0x01#8], none) := by decide

/-! ### The Device Controller (section 2.3) -/

/-- L1-1, T-CTL-1. -/
theorem test_wrreg : (run 1 (start 10 [0x4C01#16])).map (fun t => t.trace) =
    some [S0, C0, D0, C1, C0, D0, C1, C0, D0, C1, C0, D0, C1, C0, D1, C1, C0, D1, C1, C0, D0, C1, C0, D0, C1,
      C0, D0, C1, C0, D0, C1, C0, D0, C1, C0, D0, C1, C0, D0, C1, C0, D0, C1, C0, D0, C1, C0, D1, C1, S1] := by decide
/-- T-RCV-8: a WRREG after a raw SELECT. -/
theorem test_wrreg_after_select : (run 2 (start 10 [0x1000#16, 0x4C01#16])).map (fun t =>
    (t.receiver.frames, t.receiver.devreg.read 0x0C#8)) = some ([.frame 0x0C#8 0x01#8], some 0x01#8) := by decide
/-- L1-2, T-CTL-5. -/
theorem test_init : framesAfter 1 (start 10 [0x5000#16]) =
    some [.frame 0x09#8 0x00#8, .frame 0x0B#8 0x07#8, .frame 0x0A#8 0x0F#8, .frame 0x0C#8 0x01#8, .frame 0x0F#8 0x00#8,
      .frame 0x01#8 0x00#8, .frame 0x02#8 0x00#8, .frame 0x03#8 0x00#8, .frame 0x04#8 0x00#8, .frame 0x05#8 0x00#8,
      .frame 0x06#8 0x00#8, .frame 0x07#8 0x00#8, .frame 0x08#8 0x00#8] := by decide +kernel
/-- T-CTL-6. -/
theorem test_clear : framesAfter 1 (start 10 [0x6000#16]) =
    some [.frame 0x01#8 0x00#8, .frame 0x02#8 0x00#8, .frame 0x03#8 0x00#8, .frame 0x04#8 0x00#8, .frame 0x05#8 0x00#8,
      .frame 0x06#8 0x00#8, .frame 0x07#8 0x00#8, .frame 0x08#8 0x00#8] := by decide +kernel
/-- T-CTL-9. -/
theorem test_render : (run 1 (start 10 [0x7000#16, 0xFF00#16, 0x8001#16, 0x0102#16, 0xAA55#16])).map (fun t =>
    (t.receiver.frames, t.din, t.cpos)) =
    some ([.frame 0x01#8 0xFF#8, .frame 0x02#8 0x00#8, .frame 0x03#8 0x80#8, .frame 0x04#8 0x01#8, .frame 0x05#8 0x01#8,
      .frame 0x06#8 0x02#8, .frame 0x07#8 0xAA#8, .frame 0x08#8 0x55#8], true, 5) := by decide +kernel

/-- R55: display-test bit 0 turns all LEDs on; with registers unknown and no test mode the view cannot say. -/
theorem test_display_test : (run 1 (start 10 [0x4F01#16])).map (fun t => t.receiver.ledLit 7 0) = some (some true) ∧
    (run 1 (start 10 [0x4F00#16])).map (fun t => t.receiver.ledLit 7 0) = some none := by decide +kernel

/-! ### The Display Sequencer (section 2.4) -/

/-- The table of clamps. -/
theorem test_clamp : [0#8, 9#8, 10#8, 11#8, 255#8].map (clampIndex (troBuild 10)) = [0, 9, 0, 0, 0] ∧
    [22#8, 23#8, 255#8].map (clampIndex (troBuild 23)) = [22, 0, 0] := by decide
/-- T-SEQ-7: the issue step of the last glyph. -/
theorem test_tick_issue : (run 1 { start 23 [0x8000#16] with cursor := 22#8 }).map (fun t =>
    ((t.receiver.image 0, t.receiver.image 7), (t.cursor, t.phase, t.cpos), (t.trace.length, t.trace.getLast?))) =
    some ((some 0xB0#8, some 0xB7#8), (22#8, .waiting, 0), (401, some (.wait 1000))) := by decide +kernel
/-- T-SEQ-3: the resume step wraps the cursor. -/
theorem test_tick_resume : (run 2 { start 23 [0x8000#16] with cursor := 22#8 }).map (fun t =>
    (t.cursor, t.phase, t.cpos)) = some (0#8, .ready, 1) := by decide +kernel
/-- T-SEQ-8. -/
theorem test_show : framesAfter 1 (start 10 [0x9003#16]) =
    some [.frame 0x01#8 0x18#8, .frame 0x02#8 0x19#8, .frame 0x03#8 0x1A#8, .frame 0x04#8 0x1B#8, .frame 0x05#8 0x1C#8,
      .frame 0x06#8 0x1D#8, .frame 0x07#8 0x1E#8, .frame 0x08#8 0x1F#8] := by decide +kernel
/-- T-SEQ-13: an index out of range. -/
theorem test_show_clamped : (run 1 (start 23 [0x9017#16])).map (fun t =>
    (t.receiver.image 0, t.receiver.image 7, t.cursor)) = some (some 0x00#8, some 0x07#8, 0#8) := by decide +kernel

/-! ### The machine -/

/-- P5: the reserved word sets `REFUSED`, appends nothing and leaves `CPOS`; nothing runs after it. -/
theorem test_reserved_stops :
    (run 1 (start 10 [0x0000#16, 0x8000#16])).map (fun t => (t.refused, t.cpos, t.trace)) =
      some (some (.reserved 0x0000#16 0), 0, []) ∧ run 2 (start 10 [0x0000#16, 0x8000#16]) = none := by decide
/-- Section 2.1: a truncated RENDER. -/
theorem test_truncated_stops : (run 1 (start 10 [0x7000#16, 0x1234#16])).map (fun t => (t.refused, t.cpos)) =
    some (some (.truncated 0), 0) := by decide
/-- R142: a finite stream ends normally at its length. -/
theorem test_end_of_run : (start 10 []).status = .normalEnd ∧ (start 10 [0x1000#16]).status = .running := by decide
/-- R118: a service that returns at its second turn, and one that never returns. -/
theorem test_wait_turns :
    (run 2 { start 1 [0x8000#16] with phase := .waiting, waitReplies := [.after 1] }).map (fun t => (t.phase, t.cpos)) =
      some (.ready, 1) ∧
    (run 2 { start 1 [0x8000#16] with phase := .waiting, waitReplies := [.never] }).map (fun t => (t.phase, t.cpos)) =
      some (.waiting, 0) := by decide
/-- The very next step runs the placed word, from reset and from a position inside the boot stream. -/
theorem test_fetch_word :
    fetchCommand (State.reset.withFetchWord 16 0x30A5) = .command (.txbyte 0xA5#8) 1 ∧
    fetchCommand ({ State.reset with cpos := 3 }.withFetchWord 16 0x7000) =
      .command (.render (Vector.replicate 8 0#8)) 5 ∧
    wordAt ({ State.reset with cpos := 3 }.withFetchWord 16 0x7000).cmd 0 = some 0x5000#16 ∧
    wordAt ({ State.reset with cpos := 3 }.withFetchWord 16 0x7000).cmd 9 = some 0x8000#16 := by decide
/-- R130: a reset after 5 of WRREG's events. -/
theorem test_abandoned : abandonedTrace (start 10 [0x4C01#16]) 5 = [S0, C0, D0, C1, C0] := by decide

/-! ### Witnesses: states and operands that meet the hypotheses of the statements -/

/-- A state with CS low after a raw SELECT, and one with a byte sampled. -/
def selected : State := { start 10 [0x2000#16] with cs := false, trace := [S0] }
def halfSent : State :=
  { start 10 [0x2000#16] with cs := false, clk := true, din := true, trace := S0 :: txEvents 0x01#8 }
def full : State := { start 10 [0x2000#16] with
  cs := false, clk := true, din := true, trace := S0 :: (txEvents 0x0C#8 ++ txEvents 0x01#8) }
/-- A state inside a TICK's wait. -/
def waitingState : State := { start 10 [0x8000#16] with
  clk := true, phase := .waiting, cursor := 9#8, trace := [C1, .wait 1000] }
def refusedState : State := { start 10 [0x0000#16] with refused := some (.reserved 0x0000#16 0) }

theorem witness_DecodedWordsAreTheEncoding : decode [0x4C01#16, 0x1000#16] = .ok (.wrreg 0xC#4 0x01#8, [0x1000#16]) := rfl

theorem witness_NoWordMatchesTwoRows : ∃ row ∈ opcodeMap, row.accepts 0x9000#16 = true := by decide

theorem witness_ReservedWordsAreExactlyTheRefused :
    Ready (start 10 [0xF123#16]) ∧ wordAt (start 10 [0xF123#16]).cmd 0 = some 0xF123#16 ∧ IsReserved 0xF123#16 :=
  ⟨by decide, rfl, by decide⟩
/-- Both sides of the boundary of a reserved field. -/
theorem witness_reserved_fields : IsReserved 0x3100#16 ∧ ¬ IsReserved 0x30FF#16 := ⟨by decide, by decide⟩

/-- The last length that is too short, and the first that is not. -/
theorem witness_TruncatedRenderIsRefused :
    let s := start 10 [0x7000#16, 0#16, 0#16, 0#16]
    Ready s ∧ wordAt s.cmd s.cpos = some 0x7000#16 ∧ streamLength s.cmd = some 4 ∧ 4 < s.cpos + 5 := by decide

theorem witness_FirstWordGivesTheLength :
    let s := start 10 [0xA000#16]
    (encode .tick).head? = some 0x8000#16 ∧ wordAt s.cmd s.cpos = some 0xA000#16 ∧ commandLength 0xA000#16 = none ∧
      Ready s ∧ (nextOf (step s)).isSome = true := by decide

theorem witness_AssemblerIsFaithful : (AsmLine.render [1, 2, 3]).wf = false ∧
    wordsOf (assembleLine "wr 0x0c, 1 ; on".toList) = some [0x4C01#16] := by decide
/-- The numbers at the ends of the ranges, decimal and hexadecimal. -/
theorem witness_AssemblerIsFaithful_numbers : (IsNumberText 255 "255".toList ∧ IsNumberText 256 "256".toList) ∧
    (IsNumberText 15 "0x0f".toList ∧ IsNumberText 16 "0x10".toList) :=
  ⟨⟨.inl (by decide), .inl (by decide)⟩, .inr ⟨1, by decide⟩, .inr ⟨0, by decide⟩⟩

theorem witness_SelectDrivesChipSelectLow : (LinesAgree selected ∧ selected.cs = false) ∧
    opField 0x1001#16 = 0x1#4 ∧ 0x1001#16 ≠ 0x1000#16 := by decide

theorem witness_DeselectDrivesChipSelectHigh : (LinesAgree (start 10 []) ∧ (start 10 []).cs = true) ∧
    (LinesAgree full ∧ full.cs = false ∧ full.receiver.bits.length = 16) ∧
    (LinesAgree halfSent ∧ halfSent.cs = false ∧ halfSent.receiver.bits.length = 8) ∧
    opField 0x2100#16 = 0x2#4 ∧ 0x2100#16 ≠ 0x2000#16 := by decide

theorem witness_TransmitByteSendsItsBits : (LinesAgree (start 10 []) ∧ (start 10 []).cs = true) ∧
    (LinesAgree selected ∧ selected.cs = false) ∧ opField 0x3100#16 = 0x3#4 ∧ aField 0x3100#16 ≠ 0 := by decide

theorem witness_LinkCommandsReadOnlyTheirOperand : isRawLink (.txbyte 0xFF#8) = true := rfl

/-- No byte, two bytes and three bytes. -/
theorem witness_RawTransferIsAFrameOfTwoBytes :
    (LinesAgree (start 10 []) ∧ (start 10 []).cs = true ∧ Ready (start 10 [])) ∧
    ([] : List Byte).length ≠ 2 ∧ ([1#8, 2#8, 3#8] : List Byte).length ≠ 2 := by decide

/-- `DEVREG[a]` after a raw transfer of `a` and 0x01 between SELECT and DESELECT. -/
def rawTransfer (a : Byte) : Option (Option Byte) :=
  (nextOf (runCommands [.select, .txbyte a, .txbyte 0x01#8, .deselect] (start 10 []))).map fun t =>
    t.receiver.devreg.read a
/-- The addresses at the ends of R56's list: 0x00 to 0x01, 0x08 to 0x09, 0x0C to 0x0D, 0x0E to 0x10, and 0x1C. -/
theorem witness_RawTransferIsAFrameOfTwoBytes_addresses :
    [0x01#8, 0x08#8, 0x09#8, 0x0C#8, 0x0F#8].map rawTransfer = List.replicate 5 (some (some 0x01#8)) ∧
    [0x00#8, 0x0D#8, 0x0E#8, 0x10#8, 0x1C#8].map rawTransfer = List.replicate 5 (some none) := by decide +kernel

theorem witness_WriteRegisterSendsOneFrame : (LinesAgree (start 10 []) ∧ (start 10 []).cs = true) ∧
    (LinesAgree selected ∧ selected.cs = false ∧ selected.receiver.bits = []) ∧
    (LinesAgree halfSent ∧ halfSent.cs = false ∧ halfSent.receiver.bits ≠ []) := by decide

theorem witness_AddressByteIsZeroExtended : (nextOf (exec (.wrreg 0xF#4 0x80#8) (start 10 []))).isSome = true ∧
    (0x0F#8, 0x00#8) ∈ commandFrames .init (start 10 []) := by decide

theorem witness_InitSendsThirteenFramesInOrder : LinesAgree (start 10 []) ∧ (start 10 []).cs = true ∧
    (nextOf (exec .init (start 10 []))).isSome = true := by decide

theorem witness_ClearBlanksTheRows : LinesAgree (start 10 []) ∧ (start 10 []).cs = true ∧
    (nextOf (exec .clear (start 10 []))).isSome = true ∧
    ((nextOf (exec .clear (start 10 []))).bind fun t => nextOf (exec .clear t)).isSome = true := by decide +kernel

theorem witness_RenderSendsItsRowsInOrder : (LinesAgree (start 10 []) ∧ (start 10 []).cs = true ∧
    (nextOf (exec (.render (Vector.replicate 8 0xFF#8)) (start 10 []))).isSome = true) ∧
    ([1#16, 2#16, 3#16] : List CommandWord).length < 4 := by decide

theorem witness_LedsShowTheRowsOrTheTest : LinesAgree (start 10 []) ∧ (start 10 []).cs = true ∧
    (0xFF#8 : Byte).getLsbD 0 = true := by decide

theorem witness_ClearAndShowAreRenders : (start 23 []).build.wf := by decide +kernel

theorem witness_CommandsSendWellFormedFrames : isRawLink .tick = false ∧ (start 10 []).build.wf ∧
    LinesAgree (start 10 []) ∧ (start 10 []).cs = true := by decide

theorem witness_EventCountsAreThoseOfTheTable : (start 1 []).build.wf := by decide

/-- One glyph, and an index and a cursor just out of range. -/
theorem witness_IndexesAreClamped : (troBuild 1).wf ∧ (start 10 []).build.glyphCount ≤ (10#8).toNat ∧
    (let s := { start 10 [] with cursor := 10#8 }
     s.build.glyphCount ≤ s.cursor.toNat ∧ (nextOf (exec .tick s)).isSome = true) := by decide

theorem witness_TickRendersThenWaits : { start 10 [] with cursor := 9#8 }.build.wf := by decide

/-- The cursor at `N - 1`, one glyph, and the cursor out of range, with both forms of a reply that returns. -/
theorem witness_TickResumesWithTheNextCursor :
    (waitingState.build.wf ∧ waitingState.refused = none ∧ waitingState.phase = .waiting ∧
      waitingState.waitReplies = [] ∧ waitingState.cursor.toNat = waitingState.build.glyphCount - 1) ∧
    (let s := { start 1 [] with phase := .waiting, waitReplies := [.after 0, .never] }
     s.build.wf ∧ s.refused = none ∧ s.phase = .waiting ∧ s.waitReplies = .after 0 :: [.never] ∧
      s.build.glyphCount = 1) ∧
    (let s := { waitingState with cursor := 10#8 }
     s.build.wf ∧ s.build.glyphCount ≤ s.cursor.toNat) := by decide

theorem witness_ShowRendersTheClampedGlyph : (start 10 []).build.wf ∧ (start 10 []).build.glyphCount ≤ (255#8).toNat := by
  decide

theorem witness_TicksCycleThroughTheGlyphs :
    let s := { start 10 [0x8000#16, 0x8000#16] with cursor := 9#8 }
    EngineInv s ∧ Ready s ∧ s.waitReplies = [] ∧ ∀ j < 2, wordAt s.cmd (s.cpos + j) = some 0x8000#16 := by decide

/-- The last address that exists, the first that does not, and a build without glyphs. -/
theorem witness_RomReadsExistExactlyBelowItsSize : (start 10 []).build.wf ∧ romRead 79 (start 10 []) = some 79#8 ∧
    romRead 80 (start 10 []) = none ∧ (79, 79#8) ∈ (start 10 []).build.rom ∧ (start 0 []).build.glyphCount = 0 := by decide

theorem witness_LineLevelsAreNeverRead : (nextOf (exec .tick (start 10 []))).isSome = true ∧
    (nextOf (step (start 10 [0x1000#16]))).isSome = true ∧
    step (start 10 []) = .fault .endOfRun ∧ step refusedState = .refused (.stopped (.reserved 0x0000#16 0)) :=
  ⟨by decide, by decide, rfl, rfl⟩

/-- A phase that changes, and a refusal that is taken. -/
theorem witness_CommandsKeepWhatTheyDoNotWrite :
    (nextOf (exec .tick (start 10 []))).map (fun t => t.phase) = some .waiting ∧
    (nextOf (exec (.showGlyph 3#8) (start 0 []))).map (fun t => t.refused) = some (some (.romRange 0)) := by decide

theorem witness_GlyphRomIsNeverWritten : (nextOf (step (start 10 [0x9003#16]))).isSome = true := by decide

theorem witness_OnlyTheResumeStepWritesTheCursor : waitingState.build.wf ∧
    (nextOf (step waitingState)).map (fun t => t.cursor) = some 0#8 ∧ (0#8) ≠ waitingState.cursor := by decide

theorem witness_StepRunsTheDecodedCommand :
    let s := start 10 [0x30A5#16, 0x2000#16]
    Ready s ∧ decode (wordsFrom s.cmd s.cpos longestCommand) = .ok (.txbyte 0xA5#8, [0x2000#16]) :=
  ⟨by decide, rfl⟩

theorem witness_WaitingEngineDrivesNothing : (waitingState.refused = none ∧ waitingState.phase = .waiting) ∧
    { waitingState with waitReplies := [.never] }.waitReplies = .never :: [] := by decide

theorem witness_RefusalStopsTheEngine :
    (nextOf (step (start 10 [0x0000#16]))).map (fun t => t.refused) = some (some (.reserved 0x0000#16 0)) ∧
    refusedState.refused = some (.reserved 0x0000#16 0) := by decide

theorem witness_ResetCutsTheCommandAnywhere : (nextOf (step (start 10 [0x30A5#16]))).isSome = true := by decide

/-- A step of the service, of a command and of a refusal, and the end of a stream (`CPOS` at its bound). -/
theorem witness_EveryStepKeepsTheInvariant : (Inv waitingState ∧ (nextOf (step waitingState)).isSome = true) ∧
    Inv (start 10 [0x8000#16]) ∧ (nextOf (step (start 10 [0x8000#16]))).isSome = true :=
  ⟨by decide, by decide, by decide⟩
theorem witness_EveryStepKeepsTheInvariant_refusal :
    Inv (start 10 [0x0000#16]) ∧ (nextOf (step (start 10 [0x0000#16]))).isSome = true := by decide

theorem witness_ResetMeetsTheInvariant : (troBuild 23).wf := by decide +kernel

theorem witness_ResetLevelsNeverReachAFrame :
    let s := { start 10 [0x8000#16] with trace := [S0, C0, D1, C1, S1] }
    ResetLevelsUnseen s ∧ (nextOf (step s)).isSome = true := by decide +kernel

theorem witness_ContractKeepsChipSelectHigh : EngineInv (start 10 []) ∧ Ready (start 10 []) ∧ (start 10 []).cs = true ∧
    keepsContract [.select, .txbyte 0x0C#8, .txbyte 0x01#8, .deselect, .init, .tick] = true := by decide

theorem witness_ContractStreamsRunToTheirEnd :
    let s := { start 10 [0x5000#16, 0x8000#16] with waitReplies := [.after 2] }
    (Inv s ∧ Ready s ∧ s.cs = true ∧ .never ∉ s.waitReplies) ∧ keepsContract [.init, .tick] = true ∧
      ∀ j < ([Instr.init, .tick].flatMap encode).length,
        wordAt s.cmd (s.cpos + j) = ([Instr.init, .tick].flatMap encode)[j]? := ⟨by decide, by decide, by decide⟩

/-- The end of a stream, where `CPOS` is its length, and the last word of a stream inside a wait. -/
theorem witness_RunsStayInsideTheStream : (Inv (start 10 []) ∧ Ready (start 10 []) ∧ wordAt (start 10 []).cmd 0 = none) ∧
    Inv waitingState ∧ ¬ CposInStream { waitingState with cpos := 1 } := ⟨by decide, by decide, by decide⟩

theorem witness_BootStreamIsInitThenTicks : (troBuild 10).wf ∧ WaitReply.never ∉ [.after 0, .after 3] := by decide

end Sys2Proof.Tests
end

section
/-!
PROOFS. Commands as bus operations: what a command sends is a list of chip-select writes and bits (R80 to R82), so a
property that these two operations keep is kept by every command.
-/

namespace Sys2Proof.Machine

/-! ### Bus operations -/

/-- What a command can do to the bus: drive CS, or put one bit on the wire (R80 to R82). -/
inductive BusOp where
  | cs (b : Level)
  | bit (b : Level)

def BusOp.run (s : State) : BusOp → State
  | .cs b => pinWrite .cs b s
  | .bit b => txBit b s

/-- The events an operation appends (R46, R82). -/
def BusOp.events : BusOp → List Event
  | .cs b => [.pin .cs b]
  | .bit b => [.pin .clk false, .pin .din b, .pin .clk true]

/-- Bus operations one after another. -/
def runBus (ops : List BusOp) (s : State) : State := ops.foldl BusOp.run s

/-- A byte on the wire, bit 7 first (R82). -/
def byteOps (v : Byte) : List BusOp := (msbFirst v).map .bit

/-- One frame (R73). -/
def frameOps (a d : Byte) : List BusOp := .cs false :: (byteOps a ++ byteOps d ++ [.cs true])

/-- Frames one after another (R90 to R94). -/
def framesOps (fs : List (Byte × Byte)) : List BusOp := fs.flatMap fun f => frameOps f.1 f.2

theorem runBus_append (ops ops' : List BusOp) (s : State) : runBus (ops ++ ops') s = runBus ops' (runBus ops s) :=
  List.foldl_append

theorem runBus_byteOps (v : Byte) (s : State) : runBus (byteOps v) s = txByte v s := List.foldl_map

theorem runBus_frameOps (a d : Byte) (s : State) : runBus (frameOps a d) s = sendFrame a d s := by
  have hcons : runBus (frameOps a d) s = runBus (byteOps a ++ byteOps d ++ [.cs true]) (pinWrite .cs false s) := rfl
  rw [hcons, runBus_append, runBus_append, runBus_byteOps, runBus_byteOps]
  rfl

theorem runBus_framesOps (fs : List (Byte × Byte)) (s : State) : runBus (framesOps fs) s = sendFrames fs s := by
  induction fs generalizing s with
  | nil => rfl
  | cons f fs ih =>
    rw [framesOps, List.flatMap_cons, runBus_append, runBus_frameOps, sendFrames_cons]
    exact ih _

/-- What every bus operation keeps, every list of them keeps. -/
theorem runBus_keeps {P : State → Prop} (hop : ∀ op u, P u → P (BusOp.run u op)) (ops : List BusOp) {s : State}
    (hs : P s) : P (runBus ops s) :=
  List.foldlRecOn ops BusOp.run hs fun u hu op _ => hop op u hu

theorem pinWrite_trace (l : Line) (b : Level) (s : State) : (pinWrite l b s).trace = s.trace ++ [.pin l b] := by
  simp [pinWrite]

theorem pinWrite_build (l : Line) (b : Level) (s : State) : (pinWrite l b s).build = s.build := by simp [pinWrite]

theorem busOp_trace (op : BusOp) (s : State) : (op.run s).trace = s.trace ++ op.events := by
  cases op <;> simp [BusOp.run, BusOp.events, txBit, pinWrite_trace]

/-- Everything bus operations can change: the lines and the end of the trace. -/
theorem runBus_shape (ops : List BusOp) (s : State) :
    ∃ cs clk din es, runBus ops s = { s with cs := cs, clk := clk, din := din, trace := s.trace ++ es } := by
  refine runBus_keeps (P := fun u => ∃ cs clk din es, u =
    { s with cs := cs, clk := clk, din := din, trace := s.trace ++ es }) ?_ ops
    ⟨s.cs, s.clk, s.din, [], by simp⟩
  rintro (b | b) _ ⟨cs, clk, din, es, rfl⟩
  · exact ⟨b, clk, din, es ++ [.pin .cs b], by simp [BusOp.run, pinWrite, State.setLine, State.record]⟩
  · exact ⟨cs, true, b, es ++ [.pin .clk false, .pin .din b, .pin .clk true], by
      simp [BusOp.run, txBit, pinWrite, State.setLine, State.record]⟩

@[simp] theorem runBus_phase (ops : List BusOp) (s : State) : (runBus ops s).phase = s.phase := by
  obtain ⟨_, _, _, _, h⟩ := runBus_shape ops s; rw [h]

@[simp] theorem runBus_refused (ops : List BusOp) (s : State) : (runBus ops s).refused = s.refused := by
  obtain ⟨_, _, _, _, h⟩ := runBus_shape ops s; rw [h]

@[simp] theorem runBus_build (ops : List BusOp) (s : State) : (runBus ops s).build = s.build := by
  obtain ⟨_, _, _, _, h⟩ := runBus_shape ops s; rw [h]

/-! ### What a command sends -/

/-- The frames of glyph `i`, or the refusal its ROM read meets (R101, R102, R43). -/
def glyphOps (i : Nat) (s : State) : Except RefusalCause (List BusOp) :=
  (readGlyph s i).map fun rows => framesOps (rowFrames rows)

/-- What a command puts on the bus, or the refusal it meets. -/
def commandOps (i : Instr) (s : State) : Except RefusalCause (List BusOp) :=
  match i with
  | .select => .ok [.cs false]
  | .deselect => .ok [.cs true]
  | .txbyte v => .ok (byteOps v)
  | .wrreg a v => .ok (frameOps (addressByte a) v)
  | .init => .ok (framesOps (initFrames s.build))
  | .clear => .ok (framesOps blankFrames)
  | .render rows => .ok (framesOps (rowFrames rows.toList))
  | .tick => glyphOps (clampIndex s.build s.cursor) s
  | .showGlyph v => glyphOps (clampIndex s.build v) s

/-- What follows a command's bus operations: TICK requests its wait (R101), the others nothing. -/
def requestWait (i : Instr) (s : State) : State := if i = .tick then waitMs Config.tickMs s else s

@[simp] theorem requestWait_refused (i : Instr) (s : State) : (requestWait i s).refused = s.refused := by
  unfold requestWait; split <;> rfl

theorem requestWait_phase {i : Instr} (h : i ≠ .tick) (s : State) : (requestWait i s).phase = s.phase := by
  rw [requestWait, if_neg h]

theorem renderGlyph_eq_glyphOps (i : Nat) (s : State) :
    renderGlyph i s = (glyphOps i s).map fun ops => runBus ops s := by
  unfold renderGlyph glyphOps
  cases readGlyph s i with
  | ok rows => exact congrArg Except.ok (runBus_framesOps _ s).symm
  | error c => rfl

/-- A command does its bus operations and, if it is TICK, requests its wait. -/
theorem exec_of_ok {i : Instr} {s : State} {ops : List BusOp} (h : commandOps i s = .ok ops) :
    exec i s = .next (requestWait i (runBus ops s)) := by
  cases i with
  | select | deselect => cases h; rfl
  | txbyte v =>
    obtain rfl : byteOps v = ops := Except.ok.inj h
    rw [runBus_byteOps]; rfl
  | wrreg a v =>
    obtain rfl : frameOps (addressByte a) v = ops := Except.ok.inj h
    rw [runBus_frameOps]; rfl
  | init | clear | render rows =>
    obtain rfl := Except.ok.inj h
    rw [runBus_framesOps]; rfl
  | tick =>
    have h : glyphOps (clampIndex s.build s.cursor) s = .ok ops := h
    simp [exec, execTick, renderGlyph_eq_glyphOps, h, Except.map, orRefuse, requestWait]
  | showGlyph v =>
    have h : glyphOps (clampIndex s.build v) s = .ok ops := h
    simp [exec, execShowGlyph, renderGlyph_eq_glyphOps, h, Except.map, orRefuse, requestWait]

/-- Only TICK and SHOW can be refused, and then nothing else changes (R43, R111). -/
theorem exec_of_error {i : Instr} {s : State} {c : RefusalCause} (h : commandOps i s = .error c) :
    (i = .tick ∨ ∃ v, i = .showGlyph v) ∧ exec i s = .next (refuse c s) := by
  cases i with
  | tick =>
    have h : glyphOps (clampIndex s.build s.cursor) s = .error c := h
    exact ⟨.inl rfl, by simp [exec, execTick, renderGlyph_eq_glyphOps, h, Except.map, orRefuse]⟩
  | showGlyph v =>
    have h : glyphOps (clampIndex s.build v) s = .error c := h
    exact ⟨.inr ⟨v, rfl⟩, by simp [exec, execShowGlyph, renderGlyph_eq_glyphOps, h, Except.map, orRefuse]⟩
  | select | deselect | txbyte | wrreg | init | clear | render => cases h

/-- The two ends of a command: its bus operations, or a refusal. -/
theorem exec_cases {i : Instr} {s t : State} (h : exec i s = .next t) :
    (∃ ops, commandOps i s = .ok ops ∧ t = requestWait i (runBus ops s)) ∨
    ((i = .tick ∨ ∃ v, i = .showGlyph v) ∧ ∃ c, commandOps i s = .error c ∧ t = refuse c s) := by
  cases hops : commandOps i s with
  | ok ops =>
    rw [exec_of_ok hops] at h
    cases h
    exact .inl ⟨ops, rfl, rfl⟩
  | error c =>
    obtain ⟨hi, he⟩ := exec_of_error hops
    rw [he] at h
    cases h
    exact .inr ⟨hi, c, rfl, rfl⟩

end Sys2Proof.Machine
end

section
/-!
PROOFS. The receiver beside the engine: its lines are the engine's (R47, R53), and its frames do not depend on the
reset levels (R33).
-/

namespace Sys2Proof.Machine

theorem receiver_of_trace_append {s t : State} {es : List Event} (hb : t.build = s.build)
    (ht : t.trace = s.trace ++ es) : t.receiver = s.receiver.after es := by
  rw [State.receiver, hb, ht, receiverView_append]
  rfl

/-! ### Lines -/

theorem onEvent_clk_lines (r : Receiver) (b : Level) :
    (r.onEvent (.pin .clk b)).cs = r.cs ∧ (r.onEvent (.pin .clk b)).clk = b ∧
      (r.onEvent (.pin .clk b)).din = r.din := by
  unfold Receiver.onEvent Receiver.sample
  dsimp only
  refine ⟨?_, rfl, ?_⟩ <;> repeat' split
  all_goals rfl

theorem onEvent_cs_lines (r : Receiver) (b : Level) :
    (r.onEvent (.pin .cs b)).cs = b ∧ (r.onEvent (.pin .cs b)).clk = r.clk ∧
      (r.onEvent (.pin .cs b)).din = r.din := by
  unfold Receiver.onEvent
  dsimp only
  refine ⟨rfl, ?_, ?_⟩ <;> repeat' split
  all_goals simp

/-- The receiver sees every pin write (R47). -/
theorem linesAgree_pinWrite (l : Line) (b : Level) {s : State} (h : LinesAgree s) : LinesAgree (pinWrite l b s) := by
  obtain ⟨hcs, hclk, hdin⟩ := h
  have hr : (pinWrite l b s).receiver = s.receiver.onEvent (.pin l b) :=
    receiver_of_trace_append (pinWrite_build l b s) (pinWrite_trace l b s)
  rw [LinesAgree, hr]
  cases l with
  | cs =>
    obtain ⟨h1, h2, h3⟩ := onEvent_cs_lines s.receiver b
    exact ⟨h1, h2.trans hclk, h3.trans hdin⟩
  | clk =>
    obtain ⟨h1, h2, h3⟩ := onEvent_clk_lines s.receiver b
    exact ⟨h1.trans hcs, h2, h3.trans hdin⟩
  | din => exact ⟨hcs, hclk, rfl⟩

theorem linesAgree_runBus (ops : List BusOp) {s : State} (h : LinesAgree s) : LinesAgree (runBus ops s) := by
  refine runBus_keeps (P := fun u => LinesAgree u) ?_ ops h
  rintro (b | b) u hu
  · exact linesAgree_pinWrite .cs b hu
  · exact linesAgree_pinWrite .clk true (linesAgree_pinWrite .din b (linesAgree_pinWrite .clk false hu))

/-- A wait request is no line event: the receiver stays as it is (R53). -/
theorem waitMs_receiver (n : Nat) (s : State) : (waitMs n s).receiver = s.receiver :=
  receiver_of_trace_append (es := [.wait n]) rfl rfl

theorem linesAgree_requestWait (i : Instr) {s : State} (h : LinesAgree s) : LinesAgree (requestWait i s) := by
  unfold requestWait
  split
  · rw [LinesAgree, waitMs_receiver]; exact h
  · exact h

/-! ### Framing -/

/-- Closing a frame neither reads nor writes the receiver's copies of CLK and DIN (R53). -/
theorem closeFrame_with_clk_din (r : Receiver) (clk din : Level) :
    Receiver.closeFrame { r with clk := clk, din := din } = { r.closeFrame with clk := clk, din := din } := by
  unfold Receiver.closeFrame Receiver.applyFrame
  dsimp only [Receiver.log, Receiver.havoc]
  repeat' split
  all_goals rfl

/-- A CS write makes the same of two receivers that frame alike (R53). -/
theorem sameFraming_onEvent_cs {r q : Receiver} (h : SameFraming r q) (b : Level) :
    SameFraming (r.onEvent (.pin .cs b)) (q.onEvent (.pin .cs b)) := by
  obtain ⟨cs, clk, din, bits, isOpen, frames, devreg⟩ := q
  obtain ⟨rfl, rfl, rfl, rfl, rfl⟩ : r.cs = cs ∧ r.bits = bits ∧ r.isOpen = isOpen ∧ r.frames = frames ∧
    r.devreg = devreg := h
  unfold Receiver.onEvent
  dsimp only
  split
  · exact ⟨rfl, rfl, rfl, rfl, rfl⟩
  · split
    · rw [closeFrame_with_clk_din r clk din]
      exact ⟨rfl, rfl, rfl, rfl, rfl⟩
    · exact ⟨rfl, rfl, rfl, rfl, rfl⟩

/-- A bit makes the same of two receivers that frame alike: CLK falls before it rises and DIN is written before it is
sampled, so the levels before it do not count (R33, R135). -/
theorem sameFraming_bit {r q : Receiver} (h : SameFraming r q) (b : Level) :
    SameFraming (r.after (BusOp.bit b).events) (q.after (BusOp.bit b).events) := by
  obtain ⟨hcs, hbits, hopen, hframes, hregs⟩ := h
  unfold BusOp.events
  dsimp only
  cases hr : r.cs with
  | false =>
    rw [after_bit_low r b hr, after_bit_low q b (hcs ▸ hr)]
    exact ⟨hcs, congrArg (· ++ [b]) hbits, hopen, hframes, hregs⟩
  | true =>
    rw [after_bit_high r b hr, after_bit_high q b (hcs ▸ hr)]
    exact ⟨hcs, hbits, hopen, congrArg (· ++ [.stray]) hframes, rfl⟩

theorem sameFraming_busOp {r q : Receiver} (h : SameFraming r q) (op : BusOp) :
    SameFraming (r.after op.events) (q.after op.events) := by
  cases op with
  | cs b => exact sameFraming_onEvent_cs h b
  | bit b => exact sameFraming_bit h b

/-- Whether the reset levels are seen is a matter of the build and the trace alone. -/
theorem resetLevelsUnseen_of_trace_append {s t : State} {es : List Event}
    (hes : ∀ r q, SameFraming r q → SameFraming (r.after es) (q.after es)) (hb : t.build = s.build)
    (ht : t.trace = s.trace ++ es) (h : ResetLevelsUnseen s) : ResetLevelsUnseen t := by
  intro clk din
  rw [receiver_of_trace_append hb ht, ht, receiverView_append]
  exact hes _ _ (h clk din)

theorem resetLevelsUnseen_of_same_trace {s t : State} (hb : t.build = s.build) (ht : t.trace = s.trace)
    (h : ResetLevelsUnseen s) : ResetLevelsUnseen t :=
  resetLevelsUnseen_of_trace_append (es := []) (fun _ _ hrq => hrq) hb (by simp [ht]) h

theorem resetLevelsUnseen_runBus (ops : List BusOp) {s : State} (h : ResetLevelsUnseen s) :
    ResetLevelsUnseen (runBus ops s) :=
  runBus_keeps (P := fun u => ResetLevelsUnseen u)
    (fun op u => resetLevelsUnseen_of_trace_append (fun _ _ hrq => sameFraming_busOp hrq op)
      (runBus_build [op] u) (busOp_trace op u)) ops h

theorem resetLevelsUnseen_requestWait (i : Instr) {s : State} (h : ResetLevelsUnseen s) :
    ResetLevelsUnseen (requestWait i s) := by
  unfold requestWait
  split
  · exact resetLevelsUnseen_of_trace_append (s := s) (es := [.wait Config.tickMs]) (fun _ _ hrq => hrq) rfl rfl h
  · exact h

theorem resetLevelsUnseen_exec {i : Instr} {s t : State} (h : exec i s = .next t) (hs : ResetLevelsUnseen s) :
    ResetLevelsUnseen t := by
  obtain ⟨ops, _, rfl⟩ | ⟨_, c, _, rfl⟩ := exec_cases h
  · exact resetLevelsUnseen_requestWait i (resetLevelsUnseen_runBus ops hs)
  · exact hs

theorem serviceTurn_trace (s : State) : (serviceTurn s).trace = s.trace := by
  obtain ⟨_, e⟩ | ⟨_, e⟩ := serviceTurn_cases s <;> simp [e]

theorem serviceTurn_build (s : State) : (serviceTurn s).build = s.build := by
  obtain ⟨_, e⟩ | ⟨_, e⟩ := serviceTurn_cases s <;> simp [e]

theorem resetLevelsUnseen_step {s t : State} (h : step s = .next t) (hs : ResetLevelsUnseen s) :
    ResetLevelsUnseen t := by
  obtain ⟨_, ⟨_, rfl⟩ | ⟨_, c, _, rfl⟩ | ⟨_, i, len, u, _, hu, rfl⟩⟩ := step_cases h
  · exact resetLevelsUnseen_of_same_trace (serviceTurn_build s) (serviceTurn_trace s) hs
  · exact hs
  · exact resetLevelsUnseen_of_same_trace (finishCommand_build u len) (finishCommand_trace u len)
      (resetLevelsUnseen_exec hu hs)

/-- Settles O44: before the first event the receivers differ in CLK and DIN alone, and every step appends whole bus
operations, each of which writes CLK and DIN before the receiver looks at them. -/
theorem resetLevelsNeverReachAFrame : Obligations.ResetLevelsNeverReachAFrame :=
  ⟨fun _ _ _ _ _ => ⟨rfl, rfl, rfl, rfl, rfl⟩, fun _ _ hs h => resetLevelsUnseen_step h hs⟩

end Sys2Proof.Machine
end

section
/-!
PROOFS. What commands leave alone (R21 to R25, R28, R32) and reset (R33).
-/

namespace Sys2Proof.Machine

/-- Settles O39: the trace after reset is empty, so the receiver is the initial one. -/
theorem resetSetsEveryElement : Obligations.ResetSetsEveryElement :=
  fun _ _ => ⟨rfl, read_unknown⟩

/-- A ROM read looks at the build alone (R41). -/
theorem romRead_of_same_build {s t : State} (h : t.build = s.build) (addr : Nat) : romRead addr t = romRead addr s := by
  unfold romRead; rw [h]

/-- Only TICK's wait request changes the phase (R101). -/
theorem exec_phase {i : Instr} {s t : State} (h : exec i s = .next t) (hp : t.phase ≠ s.phase) : i = .tick := by
  obtain ⟨ops, _, rfl⟩ | ⟨_, c, _, rfl⟩ := exec_cases h
  · by_contra hi
    exact hp (by rw [requestWait_phase hi, runBus_phase])
  · exact absurd rfl hp

/-- A command that sets the refusal mark is TICK or SHOW and does nothing else (R111). -/
theorem exec_refused {i : Instr} {s t : State} (h : exec i s = .next t) (hr : t.refused ≠ s.refused) :
    (i = .tick ∨ ∃ v, i = .showGlyph v) ∧ t = { s with refused := t.refused } := by
  obtain ⟨ops, _, rfl⟩ | ⟨hi, c, _, rfl⟩ := exec_cases h
  · exact absurd (by simp) hr
  · exact ⟨hi, rfl⟩

/-- Settles O32: the fields from the shape of a command, the phase and the refusal mark from its two ends. -/
theorem commandsKeepWhatTheyDoNotWrite : Obligations.CommandsKeepWhatTheyDoNotWrite := by
  intro i s t h
  have hphase := exec_phase h
  have hrefused := exec_refused h
  have hlink : i = .select ∨ i = .deselect → t.clk = s.clk ∧ t.din = s.din := by
    rintro (rfl | rfl) <;> (cases h; exact ⟨rfl, rfl⟩)
  have htx : ∀ v, i = .txbyte v → t.cs = s.cs := by
    rintro v rfl
    cases h
    rw [txByte_eq]
  obtain ⟨cs, clk, din, phase, refused, es, rfl⟩ := exec_shape h
  exact ⟨rfl, rfl, rfl, rfl, rfl, romRead_of_same_build rfl, ⟨es, rfl⟩, hphase, hrefused, hlink, htx⟩

/-- A turn of the service that changes the cursor is the return of the wait (R101, R118). -/
theorem serviceTurn_of_cursor_ne {s : State} (h : (serviceTurn s).cursor ≠ s.cursor) :
    ∃ rs, serviceTurn s = resumeTick { s with waitReplies := rs } := by
  obtain hret | ⟨rs, e⟩ := serviceTurn_cases s
  · exact hret
  · exact absurd (by rw [e]) h

/-- Settles O34: of the three kinds of step only the service's turn can change the cursor. -/
theorem onlyTheResumeStepWritesTheCursor : Obligations.OnlyTheResumeStepWritesTheCursor := by
  intro s t hwf h hc
  obtain ⟨_, ⟨hp, rfl⟩ | ⟨_, c, _, rfl⟩ | ⟨_, i, len, u, _, hu, rfl⟩⟩ := step_cases h
  · obtain ⟨rs, e⟩ := serviceTurn_of_cursor_ne hc
    rw [e]
    exact ⟨hp, rfl, rfl, nextCursor_toNat hwf s.cursor⟩
  · exact absurd rfl hc
  · obtain ⟨_, _, _, _, _, _, rfl⟩ := exec_shape hu
    exact absurd (by simp) hc

end Sys2Proof.Machine
end

section
/-!
PROOFS. The line levels are outputs only (R24): a function of the state that does not read them, and that such
functions compose.
-/

namespace Sys2Proof.Machine

/-- The state with other line levels. -/
abbrev State.withLines (s : State) (cs clk din : Level) : State := { s with cs := cs, clk := clk, din := din }

/-- `f` does not read the lines: from other levels it comes to the same state but for lines it leaves as they were. -/
def LevelsUnread (f : State → State) : Prop :=
  ∀ (s : State) (cs clk din : Level), ∃ cs' clk' din', f (s.withLines cs clk din) = (f s).withLines cs' clk' din' ∧
    LineIsDrivenOrKept s.cs cs (f s).cs cs' ∧ LineIsDrivenOrKept s.clk clk (f s).clk clk' ∧
    LineIsDrivenOrKept s.din din (f s).din din'

theorem LineIsDrivenOrKept.trans {l l' m m' n n' : Level} (h : LineIsDrivenOrKept l l' m m')
    (h' : LineIsDrivenOrKept m m' n n') : LineIsDrivenOrKept l l' n n' := by
  obtain hd | ⟨rfl, rfl⟩ := h'
  · exact .inl hd
  · exact h

theorem LevelsUnread.comp {f g : State → State} (hg : LevelsUnread g) (hf : LevelsUnread f) :
    LevelsUnread (fun s => g (f s)) := by
  intro s cs clk din
  obtain ⟨cs', clk', din', e, hcs, hclk, hdin⟩ := hf s cs clk din
  obtain ⟨cs'', clk'', din'', e', hcs', hclk', hdin'⟩ := hg (f s) cs' clk' din'
  exact ⟨cs'', clk'', din'', (congrArg g e).trans e', hcs.trans hcs', hclk.trans hclk', hdin.trans hdin'⟩

/-- A function that leaves the lines alone, whatever they hold. -/
theorem levelsUnread_of_commutes {f : State → State}
    (h : ∀ (s : State) (cs clk din : Level), f (s.withLines cs clk din) = (f s).withLines cs clk din) :
    LevelsUnread f := by
  intro s cs clk din
  have hkeep : f s = (f s).withLines s.cs s.clk s.din := h s s.cs s.clk s.din
  exact ⟨cs, clk, din, h s cs clk din, .inr ⟨(congrArg State.cs hkeep :), rfl⟩, .inr ⟨(congrArg State.clk hkeep :), rfl⟩,
    .inr ⟨(congrArg State.din hkeep :), rfl⟩⟩

theorem levelsUnread_pinWrite (l : Line) (b : Level) : LevelsUnread (pinWrite l b) := by
  intro s cs clk din
  cases l with
  | cs => exact ⟨b, clk, din, rfl, .inl rfl, .inr ⟨rfl, rfl⟩, .inr ⟨rfl, rfl⟩⟩
  | clk => exact ⟨cs, b, din, rfl, .inr ⟨rfl, rfl⟩, .inl rfl, .inr ⟨rfl, rfl⟩⟩
  | din => exact ⟨cs, clk, b, rfl, .inr ⟨rfl, rfl⟩, .inr ⟨rfl, rfl⟩, .inl rfl⟩

theorem levelsUnread_busOp (op : BusOp) : LevelsUnread (BusOp.run · op) := by
  cases op with
  | cs b => exact levelsUnread_pinWrite .cs b
  | bit b =>
    exact (levelsUnread_pinWrite .clk true).comp
      ((levelsUnread_pinWrite .din b).comp (levelsUnread_pinWrite .clk false))

theorem levelsUnread_runBus (ops : List BusOp) : LevelsUnread (runBus ops) := by
  induction ops with
  | nil => exact levelsUnread_of_commutes fun _ _ _ _ => rfl
  | cons op ops ih => exact ih.comp (levelsUnread_busOp op)

theorem levelsUnread_requestWait (i : Instr) : LevelsUnread (requestWait i) :=
  levelsUnread_of_commutes fun _ _ _ _ => by unfold requestWait; split <;> rfl

theorem levelsUnread_refuse (c : RefusalCause) : LevelsUnread (refuse c) :=
  levelsUnread_of_commutes fun _ _ _ _ => rfl

theorem levelsUnread_finishCommand (len : Nat) : LevelsUnread (finishCommand len) :=
  levelsUnread_of_commutes fun _ _ _ _ => by unfold finishCommand; dsimp only; split <;> rfl

theorem levelsUnread_serviceTurn : LevelsUnread serviceTurn :=
  levelsUnread_of_commutes fun _ _ _ _ => by unfold serviceTurn; dsimp only; split <;> rfl

/-- `r` answers a next state from `s` at every line levels, by one function that does not read them. -/
def AnswersUnread (r : State → Host.Outcome State Fault Refusal) (s : State) : Prop :=
  ∃ f, LevelsUnread f ∧ ∀ cs clk din, r (s.withLines cs clk din) = .next (f (s.withLines cs clk din))

/-- The form in which R24 says it. -/
theorem AnswersUnread.next {r : State → Host.Outcome State Fault Refusal} {s t : State} (h : AnswersUnread r s)
    (ht : r s = .next t) (cs clk din : Level) :
    ∃ cs' clk' din', r (s.withLines cs clk din) = .next (t.withLines cs' clk' din') ∧
      LineIsDrivenOrKept s.cs cs t.cs cs' ∧ LineIsDrivenOrKept s.clk clk t.clk clk' ∧
      LineIsDrivenOrKept s.din din t.din din' := by
  obtain ⟨f, hf, hr⟩ := h
  have hs : r s = .next (f s) := hr s.cs s.clk s.din
  obtain rfl : f s = t := Host.Outcome.next.inj (hs.symm.trans ht)
  obtain ⟨cs', clk', din', e, hlines⟩ := hf s cs clk din
  exact ⟨cs', clk', din', (hr cs clk din).trans (congrArg _ e), hlines⟩

theorem readRows_of_same_build {s t : State} (h : t.build = s.build) (i : Nat) (rs : List Nat) :
    readRows t i rs = readRows s i rs := by
  induction rs with
  | nil => rfl
  | cons r rs ih => simp only [readRows, romRead_of_same_build h, ih]

/-- What a command sends is read from the build and the cursor (R24, R41). -/
theorem commandOps_withLines (i : Instr) (s : State) (cs clk din : Level) :
    commandOps i (s.withLines cs clk din) = commandOps i s := by
  have hglyph : ∀ g, glyphOps g (s.withLines cs clk din) = glyphOps g s := fun g =>
    congrArg (Except.map _) (readRows_of_same_build rfl g (List.range 8))
  cases i with
  | tick => exact hglyph _
  | showGlyph v => exact hglyph _
  | select | deselect | txbyte | wrreg | init | clear | render => rfl

theorem exec_answersUnread (i : Instr) (s : State) : AnswersUnread (exec i) s := by
  cases hops : commandOps i s with
  | ok ops =>
    exact ⟨_, (levelsUnread_requestWait i).comp (levelsUnread_runBus ops), fun cs clk din =>
      exec_of_ok ((commandOps_withLines i s cs clk din).trans hops)⟩
  | error c =>
    exact ⟨_, levelsUnread_refuse c, fun cs clk din =>
      (exec_of_error ((commandOps_withLines i s cs clk din).trans hops)).2⟩

theorem step_of_command {s : State} {i : Instr} {len : Nat} (h : Ready s) (hf : fetchCommand s = .command i len) :
    step s = afterExec len (exec i s) := by
  rw [step_of_ready h, hf]

theorem step_of_refusal {s : State} {c : RefusalCause} (h : Ready s) (hf : fetchCommand s = .refusal c) :
    step s = .next (refuse c s) := by
  rw [step_of_ready h, hf]

theorem step_of_stop {s : State} {f : Fault} (h : Ready s) (hf : fetchCommand s = .stop f) : step s = .fault f := by
  rw [step_of_ready h, hf]

/-- REFUSED, PHASE and the fetch are the same at any levels, so every step is of the same kind at any levels (R79). -/
theorem step_answersUnread {s t : State} (h : step s = .next t) : AnswersUnread step s := by
  obtain ⟨hr, ⟨hp, _⟩ | ⟨hp, c, hf, _⟩ | ⟨hp, i, len, _, hf, _, _⟩⟩ := step_cases h
  · exact ⟨_, levelsUnread_serviceTurn, fun _ _ _ => step_of_waiting hr hp⟩
  · exact ⟨_, levelsUnread_refuse c, fun _ _ _ => step_of_refusal ⟨hr, hp⟩ hf⟩
  · obtain ⟨f, hlevels, hexec⟩ := exec_answersUnread i s
    refine ⟨_, (levelsUnread_finishCommand len).comp hlevels, fun cs clk din => ?_⟩
    rw [step_of_command (s := s.withLines cs clk din) ⟨hr, hp⟩ hf, hexec]
    rfl

/-- A step that stops stops the same at any levels. -/
theorem step_withLines_of_stops {s : State} (h : ∀ t, step s ≠ .next t) (cs clk din : Level) :
    step (s.withLines cs clk din) = step s := by
  cases hr : s.refused with
  | some c => rw [step_of_refused (s := s.withLines cs clk din) hr, step_of_refused hr]
  | none =>
    cases hp : s.phase with
    | waiting => exact absurd (step_of_waiting hr hp) (h _)
    | ready =>
      have hready : Ready s := ⟨hr, hp⟩
      cases hf : fetchCommand s with
      | stop f => rw [step_of_stop (s := s.withLines cs clk din) hready hf, step_of_stop hready hf]
      | refusal c => exact absurd (step_of_refusal hready hf) (h _)
      | command i len =>
        obtain ⟨u, hu⟩ := exec_next i s
        exact absurd (by rw [step_of_command hready hf, hu]; rfl) (h (finishCommand len u))

/-- Settles O31: commands and steps are composed of operations that do not read the lines. -/
theorem lineLevelsAreNeverRead : Obligations.LineLevelsAreNeverRead := by
  refine ⟨fun i s t cs clk din h => (exec_answersUnread i s).next h cs clk din,
    fun s t cs clk din h => (step_answersUnread h).next h cs clk din, ?_, ?_⟩
  · intro s f cs clk din h
    exact (step_withLines_of_stops (by simp [h]) cs clk din).trans h
  · intro s r cs clk din h
    exact (step_withLines_of_stops (by simp [h]) cs clk din).trans h

end Sys2Proof.Machine
end

section
/-!
PROOFS. The invariant of the machine: it holds at reset (R33) and every step keeps it (R28, R41, R47, R79, R101,
R111).
-/

namespace Sys2Proof.Machine

/-! ### Reset -/

theorem inv_resetWith {b : Build} (h : b.wf) (cmd : CommandStream) (replies : List WaitReply) :
    Inv (State.resetWith b cmd replies) :=
  ⟨⟨h, h.1, ⟨rfl, rfl, rfl⟩, nofun, fun _ => rfl⟩, fun n _ => ⟨n.zero_le, nofun⟩⟩

/-- Settles O43: every mode's build is in range. -/
theorem resetMeetsTheInvariant : Obligations.ResetMeetsTheInvariant :=
  ⟨fun _ cmd replies h => inv_resetWith h cmd replies, inv_resetWith (build_ofMode_wf Config.mode) _ _⟩

/-! ### Commands -/

/-- After the frames of a glyph the lines are at rest (R95, R101). -/
theorem sendFrames_glyphFrames_atRest (b : Build) (i : Nat) (s : State) :
    (sendFrames (glyphFrames b i) s).cs = true ∧ (sendFrames (glyphFrames b i) s).clk = true := by
  have hlast : glyphFrames b i = (List.range 7).map (fun r => (BitVec.ofNat 8 (r + 1), glyphByte b i r)) ++
      [(8#8, glyphByte b i 7)] := rfl
  rw [hlast, sendFrames_eq]
  exact ⟨rfl, rfl⟩

/-- TICK in a build in range requests its wait with the lines at rest (R101). -/
theorem exec_tick_atRest {s : State} (h : s.build.wf) :
    ∃ u, exec .tick s = .next (waitMs Config.tickMs u) ∧ u.cs = true ∧ u.clk = true := by
  refine ⟨_, ?_, sendFrames_glyphFrames_atRest s.build (clampIndex s.build s.cursor) s⟩
  rw [exec, execTick, renderGlyph_ok h (clampIndex_lt h.1 s.cursor)]
  rfl

theorem getLast?_waitMs_trace (n : Nat) (s : State) : (waitMs n s).trace.getLast? = some (.wait n) := by simp

theorem waitIsQuiet_exec {i : Instr} {s t : State} (hwf : s.build.wf) (hs : Ready s) (h : exec i s = .next t) :
    WaitIsQuiet t := by
  intro hw
  obtain rfl : i = .tick := exec_phase h (by simp [hw, hs.2])
  obtain ⟨u, hu, hcs, hclk⟩ := exec_tick_atRest hwf
  obtain rfl := Host.Outcome.next.inj (hu.symm.trans h)
  exact ⟨hcs, hclk, getLast?_waitMs_trace _ _⟩

theorem linesAgree_exec {i : Instr} {s t : State} (hs : LinesAgree s) (h : exec i s = .next t) : LinesAgree t := by
  obtain ⟨ops, _, rfl⟩ | ⟨_, c, _, rfl⟩ := exec_cases h
  · exact linesAgree_requestWait i (linesAgree_runBus ops hs)
  · exact hs

/-- A command that is refused leaves the engine ready (R111). -/
theorem ready_of_exec_refused {i : Instr} {s t : State} (hs : Ready s) (h : exec i s = .next t)
    (hr : t.refused ≠ none) : t.phase = .ready := by
  obtain ⟨_, e⟩ := exec_refused h (by rwa [hs.1])
  rw [e]
  exact hs.2

/-- Every command keeps the invariant of the engine. -/
theorem engineInv_exec {i : Instr} {s t : State} (hi : EngineInv s) (hs : Ready s) (h : exec i s = .next t) :
    EngineInv t := by
  obtain ⟨hwf, hcur, hlines, _, _⟩ := hi
  have hlines' := linesAgree_exec hlines h
  have hquiet' := waitIsQuiet_exec hwf hs h
  have hrefused' := ready_of_exec_refused hs h
  obtain ⟨_, _, _, _, _, _, rfl⟩ := exec_shape h
  exact ⟨hwf, hcur, hlines', hquiet', hrefused'⟩

theorem engineInv_finishCommand {s : State} (h : EngineInv s) (len : Nat) : EngineInv (finishCommand len s) := by
  unfold finishCommand
  split <;> exact h

/-! ### The fetch and the stream -/

/-- The two lengths of R63: RENDER's five words, and one for every other row. -/
theorem opcodeMap_words : ∀ row ∈ opcodeMap, row.words = if row.op = .render then 5 else 1 := by decide

/-- A word that has a length has a row of the map, and with it one of the two lengths (R63, R64). -/
theorem findRow_of_commandLength {cw : CommandWord} {len : Nat} (h : commandLength cw = some len) :
    ∃ row, findRow cw = some row ∧ len = if row.op = .render then 5 else 1 := by
  obtain ⟨row, hrow, rfl⟩ := Option.map_eq_some_iff.1 h
  exact ⟨row, hrow, opcodeMap_words row (List.mem_of_find?_eq_some hrow)⟩

/-- What the decoder reads a command from holds all the words of the command (R62, R79). -/
theorem commandLength_le_of_decode {cw : CommandWord} {ext rest : List CommandWord} {len : Nat} {i : Instr}
    (hlen : commandLength cw = some len) (h : decode (cw :: ext) = .ok (i, rest)) : len ≤ (cw :: ext).length := by
  obtain ⟨⟨op, pattern, mask, words⟩, hrow, rfl⟩ := findRow_of_commandLength hlen
  simp only [decode, hrow] at h
  cases op with
  | render =>
    match ext, h with
    | _ :: _ :: _ :: _ :: _, _ => simp
  | select | deselect | txbyte | wrreg | init | clear | tick | showGlyph => simp

/-- The words read from a position inside a finite stream end inside it. -/
theorem wordsFrom_inside {c : CommandStream} {n : Nat} (hn : streamLength c = some n) {k : Nat} (hk : k ≤ n) (m : Nat) :
    k + (wordsFrom c k m).length ≤ n := by
  induction m generalizing k with
  | zero => exact hk
  | succ m ih =>
    rw [wordsFrom_succ]
    cases hw : wordAt c k with
    | none => exact hk
    | some w =>
      have hlt : k < n := (wordAt_isSome_iff hn k).1 (by simp [hw])
      have := ih (k := k + 1) hlt
      simp only [List.length_cons]
      omega

theorem fetchCommand_command {s : State} {i : Instr} {len : Nat} (h : fetchCommand s = .command i len) :
    ∃ cw rest, wordAt s.cmd s.cpos = some cw ∧ commandLength cw = some len ∧
      decode (wordsFrom s.cmd s.cpos len) = .ok (i, rest) := by
  unfold fetchCommand at h
  split at h
  · cases h
  · rename_i cw hw
    split at h
    · cases h
    · rename_i len' hlen
      split at h
      · rename_i j rest hd
        cases h
        exact ⟨cw, rest, hw, hlen, hd⟩
      · cases h

/-- A command that is fetched has at least one word, and all its words are in the stream (R79). -/
theorem fetched_inside {s : State} {i : Instr} {len n : Nat} (h : fetchCommand s = .command i len)
    (hn : streamLength s.cmd = some n) (hpos : s.cpos ≤ n) : 1 ≤ len ∧ s.cpos + len ≤ n := by
  obtain ⟨cw, rest, hw, hlen, hd⟩ := fetchCommand_command h
  have hone : 1 ≤ len := by
    obtain ⟨row, _, rfl⟩ := findRow_of_commandLength hlen
    split <;> decide
  have hwords : len ≤ (wordsFrom s.cmd s.cpos len).length := by
    obtain ⟨m, rfl⟩ := Nat.exists_eq_add_of_le' hone
    rw [wordsFrom_succ, hw] at hd ⊢
    exact commandLength_le_of_decode hlen hd
  have := wordsFrom_inside hn hpos len
  exact ⟨hone, by omega⟩

theorem cposInStream_command {s t : State} {i : Instr} {len : Nat} (hs : CposInStream s)
    (hf : fetchCommand s = .command i len) (h : exec i s = .next t) : CposInStream (finishCommand len t) := by
  obtain ⟨_, _, _, _, _, _, rfl⟩ := exec_shape h
  intro n hn
  have hn : streamLength s.cmd = some n := by simpa using hn
  obtain ⟨hone, hend⟩ := fetched_inside hf hn (hs n hn).1
  unfold finishCommand
  split
  case isTrue hready => exact ⟨hend, fun hw => absurd (hready.1.symm.trans hw) (by decide)⟩
  case isFalse =>
    have hlt : s.cpos < n := by omega
    exact ⟨hlt.le, fun _ => hlt⟩

/-! ### Steps -/

theorem inv_command {s t : State} {i : Instr} {len : Nat} (hi : Inv s) (hs : Ready s)
    (hf : fetchCommand s = .command i len) (h : exec i s = .next t) : Inv (finishCommand len t) :=
  ⟨engineInv_finishCommand (engineInv_exec hi.1 hs h) len, cposInStream_command hi.2 hf h⟩

theorem inv_refuse {s : State} (hi : Inv s) (hs : Ready s) (c : RefusalCause) : Inv (refuse c s) := by
  obtain ⟨⟨hwf, hcur, hlines, hquiet, _⟩, hpos⟩ := hi
  exact ⟨⟨hwf, hcur, hlines, hquiet, fun _ => hs.2⟩, hpos⟩

/-- The resume step moves `CPOS` past the TICK, which was inside the stream during the wait (R101). -/
theorem inv_resumeTick {s : State} (hi : Inv s) (hp : s.phase = .waiting) : Inv (resumeTick s) := by
  obtain ⟨⟨hwf, _, hlines, _, _⟩, hpos⟩ := hi
  exact ⟨⟨hwf, nextCursor_lt hwf s.cursor, hlines, nofun, fun _ => rfl⟩, fun n hn => ⟨(hpos n hn).2 hp, nofun⟩⟩

theorem inv_serviceTurn {s : State} (hi : Inv s) (hp : s.phase = .waiting) : Inv (serviceTurn s) := by
  obtain ⟨rs, e⟩ | ⟨rs, e⟩ := serviceTurn_cases s <;> rw [e]
  · exact inv_resumeTick (s := { s with waitReplies := rs }) hi hp
  · exact hi

/-- Settles O42: by the three kinds of step. -/
theorem everyStepKeepsTheInvariant : Obligations.EveryStepKeepsTheInvariant := by
  intro s t hi h
  obtain ⟨hr, ⟨hp, rfl⟩ | ⟨hp, c, _, rfl⟩ | ⟨hp, i, len, u, hf, hu, rfl⟩⟩ := step_cases h
  · exact inv_serviceTurn hi hp
  · exact inv_refuse hi ⟨hr, hp⟩ c
  · exact inv_command hi ⟨hr, hp⟩ hf hu

end Sys2Proof.Machine
end

section
/-!
PROOFS. What the device registers hold after frames, and what the LEDs show then (R41, R55, R56, R58).
-/

namespace Sys2Proof.Machine

/-! ### The registers after frames -/

@[simp] theorem sendFrames_build (fs : List (Byte × Byte)) (s : State) : (sendFrames fs s).build = s.build := by
  rw [← runBus_framesOps, runBus_build]

/-- Frames append their events, one frame after another (R73). -/
theorem sendFrames_trace (fs : List (Byte × Byte)) (s : State) :
    (sendFrames fs s).trace = s.trace ++ framesEvents fs := by
  induction fs generalizing s with
  | nil => exact (List.append_nil _).symm
  | cons f fs ih => rw [sendFrames_cons, ih, sendFrame_eq, framesEvents_cons, List.append_assoc]

theorem receiver_sendFrames (fs : List (Byte × Byte)) (s : State) :
    (sendFrames fs s).receiver = s.receiver.after (framesEvents fs) :=
  receiver_of_trace_append (sendFrames_build fs s) (sendFrames_trace fs s)

theorem receiver_cs_sendFrames (fs : List (Byte × Byte)) {s : State} (h : s.receiver.cs = true) :
    (sendFrames fs s).receiver.cs = true := by
  rw [receiver_sendFrames]
  exact (after_framesEvents fs s.receiver h).1

/-- A register holds the data of the last frame to it, or what it held before (R56). -/
theorem read_foldl_applyFrame {fs : List (Byte × Byte)} (hfs : ∀ f ∈ fs, recognised f.1 = true) (r : Receiver)
    (x : Byte) :
    (fs.foldl (fun q f => q.applyFrame f.1 f.2) r).devreg.read x = (fs.reverse.lookup x).or (r.devreg.read x) := by
  induction fs generalizing r with
  | nil => rfl
  | cons f fs ih =>
    rw [List.foldl_cons, ih (fun g hg => hfs g (List.mem_cons_of_mem _ hg)),
      read_applyFrame r (hfs f List.mem_cons_self), List.reverse_cons, List.lookup_append, List.lookup_singleton,
      Option.or_assoc]
    by_cases hx : x = f.1 <;> simp [hx]

/-- The registers after frames to recognised addresses, sent with CS high (R56, R95). -/
theorem read_sendFrames {fs : List (Byte × Byte)} (hfs : ∀ f ∈ fs, recognised f.1 = true) {s : State}
    (h : s.receiver.cs = true) (x : Byte) :
    (sendFrames fs s).receiver.devreg.read x = (fs.reverse.lookup x).or (s.receiver.devreg.read x) := by
  rw [receiver_sendFrames, (after_framesEvents fs s.receiver h).2.2, read_foldl_applyFrame hfs]

/-! ### The frames of INIT and RENDER -/

/-- RENDER's frames, row by row (R94). -/
theorem rowFrames_toList (rows : Vector Byte 8) : rowFrames rows.toList =
    [(0x01#8, rows[0]), (0x02#8, rows[1]), (0x03#8, rows[2]), (0x04#8, rows[3]), (0x05#8, rows[4]),
      (0x06#8, rows[5]), (0x07#8, rows[6]), (0x08#8, rows[7])] := by
  match rows with
  | ⟨⟨[_, _, _, _, _, _, _, _]⟩, rfl⟩ => rfl

theorem recognised_rowFrames (rows : Vector Byte 8) : ∀ f ∈ rowFrames rows.toList, recognised f.1 = true := by
  have haddr : ∀ a ∈ [0x01#8, 0x02#8, 0x03#8, 0x04#8, 0x05#8, 0x06#8, 0x07#8, 0x08#8], recognised a = true := by
    decide
  rw [rowFrames_toList]
  exact fun f hf => haddr f.1 (List.mem_map_of_mem (f := Prod.fst) hf)

theorem recognised_initFrames (b : Build) : ∀ f ∈ initFrames b, recognised f.1 = true := by
  have haddr : ∀ a ∈ [regDecodeMode, regScanLimit, regIntensity, regShutdown, regDisplayTest] ++
      blankFrames.map Prod.fst, recognised a = true := by decide
  exact fun f hf => haddr f.1 (List.mem_map_of_mem (f := Prod.fst) hf)

/-- The image after RENDER's frames is the rows (R58, R94). -/
theorem image_sendFrames_rowFrames (rows : Vector Byte 8) {s : State} (h : s.receiver.cs = true) (row : Fin 8) :
    (sendFrames (rowFrames rows.toList) s).receiver.image row.val = some rows[row] := by
  have hlast : (rowFrames rows.toList).reverse.lookup (regRow row.val) = some rows[row] := by
    rw [rowFrames_toList]
    fin_cases row <;> rfl
  rw [Receiver.image, read_sendFrames (recognised_rowFrames rows) h, hlast]
  rfl

/-! ### The LEDs -/

theorem displayEnabled_iff (r : Receiver) : r.displayEnabled = true ↔
    r.devreg.read regShutdown = some 0x01#8 ∧ r.devreg.read regDisplayTest = some 0x00#8 ∧
      r.devreg.read regDecodeMode = some 0x00#8 ∧ r.devreg.read regScanLimit = some 0x07#8 := by
  simp [Receiver.displayEnabled, and_assoc]

/-- An enabled display is not in test mode, so the LEDs show the image (R55, R58). -/
theorem ledLit_of_displayEnabled {r : Receiver} (h : r.displayEnabled = true) (row col : Fin 8) :
    r.ledLit row col = (r.image row.val).map fun b => b.getLsbD (7 - col.val) := by
  obtain ⟨-, htest, -, -⟩ := (displayEnabled_iff r).1 h
  have hoff : r.testMode ≠ some true := by rw [Receiver.testMode, htest]; decide
  rw [Receiver.ledLit, if_neg hoff, if_pos h]

/-- INIT enables the display (R91; log 7, log 15). -/
theorem displayEnabled_sendFrames_initFrames {s : State} (h : s.receiver.cs = true) :
    (sendFrames (initFrames s.build) s).receiver.displayEnabled = true := by
  simp only [displayEnabled_iff, read_sendFrames (recognised_initFrames s.build) h]
  exact ⟨rfl, rfl, rfl, rfl⟩

/-- RENDER writes no control register, so the display stays enabled (R58, R94). -/
theorem displayEnabled_sendFrames_rowFrames (rows : Vector Byte 8) {s : State} (h : s.receiver.cs = true)
    (hs : s.receiver.displayEnabled = true) :
    (sendFrames (rowFrames rows.toList) s).receiver.displayEnabled = true := by
  have hkeep : ∀ x ∈ [regShutdown, regDisplayTest, regDecodeMode, regScanLimit],
      (rowFrames rows.toList).reverse.lookup x = none := by
    rw [rowFrames_toList]
    simp only [List.forall_mem_cons]
    exact ⟨rfl, rfl, rfl, rfl, nofun⟩
  rw [displayEnabled_iff] at hs ⊢
  simp only [read_sendFrames (recognised_rowFrames rows) h]
  simpa [hkeep] using hs

/-- A frame that sets display-test bit 0 puts the display in test mode (R55). -/
theorem testMode_sendFrame {s : State} (h : s.receiver.cs = true) {v : Byte} (hv : v.getLsbD 0 = true) :
    (sendFrame regDisplayTest v s).receiver.testMode = some true := by
  have hread : (sendFrames [(regDisplayTest, v)] s).receiver.devreg.read regDisplayTest = some v :=
    read_sendFrames (fs := [(regDisplayTest, v)]) (List.forall_mem_singleton.2 rfl) h regDisplayTest
  rw [Receiver.testMode, ← hv]
  exact congrArg (Option.map _) hread

/-- Settles O48: INIT enables the display and RENDER keeps it enabled, so each LED shows its row's bit; in test mode
the rows do not count. -/
theorem ledsShowTheRowsOrTheTest : Obligations.LedsShowTheRowsOrTheTest := by
  intro s hlines hcs
  have hs : s.receiver.cs = true := hlines.1.trans hcs
  constructor
  · intro rows
    have ht := receiver_cs_sendFrames (initFrames s.build) hs
    refine ⟨_, _, rfl, rfl, fun row col => ?_⟩
    rw [ledLit_of_displayEnabled
      (displayEnabled_sendFrames_rowFrames rows ht (displayEnabled_sendFrames_initFrames hs)),
      image_sendFrames_rowFrames rows ht]
    rfl
  · intro v hv
    exact ⟨_, rfl, fun _ _ => if_pos (testMode_sendFrame hs hv)⟩

end Sys2Proof.Machine
end

section
/-!
PROOFS. The glyph ROM: which reads have a value (R41, R43) and that nothing writes it (R42). Pin writes (R46).
-/

namespace Sys2Proof.Machine

/-! ### Reads -/

/-- An address that the canonical ROM lists is below its size (R41). -/
theorem addr_lt_of_mem_rom {n : Nat} {rom : List Host.Cell} (h : Memory.wf n rom) {addr : Nat} {b : Byte}
    (hm : (addr, b) ∈ rom) : addr < 8 * n := by
  have : addr ∈ rom.map Prod.fst := List.mem_map_of_mem hm
  rw [h] at this
  exact List.mem_range.1 this

/-- A canonical ROM lists an address once, so a read finds the byte listed there (R41). -/
theorem read_of_mem {n : Nat} {rom : List Host.Cell} (h : Memory.wf n rom) {addr : Nat} {b : Byte}
    (hm : (addr, b) ∈ rom) : Memory.read rom addr = some b := by
  obtain ⟨before, later, rfl⟩ := List.append_of_mem hm
  have hnodup : ((before ++ (addr, b) :: later).map Prod.fst).Nodup := h ▸ List.nodup_range
  rw [List.map_append, List.nodup_append] at hnodup
  obtain ⟨-, -, hdisjoint⟩ := hnodup
  refine List.lookup_eq_some_iff.2 ⟨before, later, rfl, fun p hp => bne_iff_ne.2 fun e => ?_⟩
  exact hdisjoint p.1 (List.mem_map_of_mem hp) addr (by simp) e.symm

theorem romRead_isSome_iff {s : State} (h : s.build.wf) (addr : Nat) :
    (romRead addr s).isSome = true ↔ addr < 8 * s.build.glyphCount := by
  unfold romRead
  split
  case isTrue hlt => simp [hlt, read_isSome h.2.2 hlt]
  case isFalse hge => simp [hge]

theorem romRead_of_mem {s : State} (h : s.build.wf) {addr : Nat} {b : Byte} (hm : (addr, b) ∈ s.build.rom) :
    romRead addr s = some b := by
  rw [romRead, if_pos (addr_lt_of_mem_rom h.2.2 hm), read_of_mem h.2.2 hm]

/-- In a build without glyphs every index clamps to 0, and glyph 0 has no address to read (R43; log 21). -/
theorem glyphOps_of_no_glyphs {s : State} (h : s.build.glyphCount = 0) (v : Byte) :
    glyphOps (clampIndex s.build v) s = .error (.romRange 0) := by
  have hclamp : clampIndex s.build v = 0 := by simp [clampIndex, h]
  have hread : romRead 0 s = none := by simp [romRead, h]
  have hglyph : readGlyph s 0 = .error (.romRange 0) := by
    rw [readGlyph, List.range_succ_eq_map, readRows, hread]
  rw [hclamp, glyphOps, hglyph]
  rfl

/-- Settles O30: a canonical ROM lists each address below `8*N` once, and without glyphs the first read is refused. -/
theorem romReadsExistExactlyBelowItsSize : Obligations.RomReadsExistExactlyBelowItsSize := by
  refine ⟨fun s addr h => ?_, fun s addr b h hm => romRead_of_mem h hm, fun s v h => ⟨?_, ?_⟩⟩
  · rw [← romRead_isSome_iff h, Option.isSome_iff_exists]
  · exact (exec_of_error (i := .showGlyph v) (glyphOps_of_no_glyphs h v)).2
  · exact (exec_of_error (i := .tick) (glyphOps_of_no_glyphs h s.cursor)).2

/-! ### Writes -/

theorem exec_build {i : Instr} {s t : State} (h : exec i s = .next t) : t.build = s.build := by
  obtain ⟨_, _, _, _, _, _, rfl⟩ := exec_shape h
  rfl

/-- No step writes a constant of the build (R25). -/
theorem step_build {s t : State} (h : step s = .next t) : t.build = s.build := by
  obtain ⟨_, ⟨_, rfl⟩ | ⟨_, c, _, rfl⟩ | ⟨_, i, len, u, _, hu, rfl⟩⟩ := step_cases h
  · exact serviceTurn_build s
  · exact refuse_build s c
  · exact (finishCommand_build u len).trans (exec_build hu)

/-- Settles O33: the ROM is part of the build, which no step writes. -/
theorem glyphRomIsNeverWritten : Obligations.GlyphRomIsNeverWritten := fun _ _ h =>
  ⟨congrArg Build.rom (step_build h), romRead_of_same_build (step_build h)⟩

/-! ### Pin writes -/

/-- Settles O10: a pin write is a line write and an entry of the trace, whatever the level was. -/
theorem pinWriteIsOneEvent : Obligations.PinWriteIsOneEvent := fun _ _ => ⟨rfl, rfl, rfl⟩

end Sys2Proof.Machine
end

section
/-!
PROOFS. The decoder and the encoder (R60 to R67): the row of each word, and that words and commands stand for each
other one to one.
-/

namespace Sys2Proof

open Machine

/-! ### Bytes of a word -/

@[simp] theorem highByte_append (hi lo : Byte) : highByte (hi ++ lo) = hi := BitVec.extractLsb'_append_eq_left

@[simp] theorem lowByte_append (hi lo : Byte) : lowByte (hi ++ lo) = lo := BitVec.extractLsb'_append_eq_right

/-- A word is its two bytes, the high one first (R62). -/
theorem highByte_append_lowByte (w : CommandWord) : highByte w ++ lowByte w = w := by
  rw [highByte, lowByte, BitVec.extractLsb'_append_extractLsb'_eq_extractLsb' (by decide)]
  exact BitVec.extractLsb'_eq_self

/-- The bytes of words are those words again (R62). -/
theorem wordsOfBytes_bytesOfWords (ws : List CommandWord) : wordsOfBytes (bytesOfWords ws) = ws := by
  induction ws with
  | nil => rfl
  | cons w ws ih =>
    have hcons : wordsOfBytes (bytesOfWords (w :: ws)) =
      (highByte w ++ lowByte w) :: wordsOfBytes (bytesOfWords ws) := rfl
    rw [hcons, highByte_append_lowByte, ih]

/-- The extension words of eight rows hold these rows (R62). -/
theorem rowsOfExtension_appends (rows : Vector Byte 8) :
    rowsOfExtension (rows[0] ++ rows[1]) (rows[2] ++ rows[3]) (rows[4] ++ rows[5]) (rows[6] ++ rows[7]) = rows := by
  match rows with
  | ⟨⟨[_, _, _, _, _, _, _, _]⟩, rfl⟩ => simp [rowsOfExtension]

/-! ### Rows and words -/

/-- Every row looks at the whole `OP`, and no two rows have the same one (R64). -/
theorem opcodeMap_opFields : (∀ row ∈ opcodeMap, opField row.mask = 0xF#4) ∧
    ∀ row ∈ opcodeMap, ∀ row' ∈ opcodeMap, opField row.pattern = opField row'.pattern → row = row' := by decide

/-- A row accepts a word whose fields, under the row's mask, are the row's pattern (R61, R64). -/
theorem fields_of_accepts {row : OpcodeRow} {cw : CommandWord} (h : row.accepts cw = true) :
    opField cw &&& opField row.mask = opField row.pattern ∧ aField cw &&& aField row.mask = aField row.pattern ∧
      vField cw &&& vField row.mask = vField row.pattern := by
  rw [← commandWord_fields cw, accepts_commandWord] at h
  simpa using h

theorem opField_of_accepts {row : OpcodeRow} (hrow : row ∈ opcodeMap) {cw : CommandWord} (h : row.accepts cw = true) :
    opField cw = opField row.pattern := by
  obtain ⟨hop, -, -⟩ := fields_of_accepts h
  rw [opcodeMap_opFields.1 row hrow] at hop
  exact BitVec.and_allOnes.symm.trans hop

/-- Settles O3: both rows have the word's `OP`. -/
theorem noWordMatchesTwoRows : Obligations.NoWordMatchesTwoRows := fun _ row hrow row' hrow' h h' =>
  opcodeMap_opFields.2 row hrow row' hrow' ((opField_of_accepts hrow h).symm.trans (opField_of_accepts hrow' h'))

/-- The words that match no row are those of R66: of `A` and `V` only whether they are zero counts, and then each of the
sixteen values of `OP` is looked up. -/
theorem findRow_eq_none_iff (cw : CommandWord) : findRow cw = none ↔ IsReserved cw := by
  obtain ⟨op, a, v, rfl⟩ : ∃ op a v, cw = commandWord op a v := ⟨_, _, _, (commandWord_fields cw).symm⟩
  simp only [findRow_commandWord, IsReserved, opField_commandWord, aField_commandWord, vField_commandWord]
  by_cases ha : a = 0 <;> by_cases hv : v = 0 <;> simp only [ha, hv, ne_eq] <;> (revert op; decide)

/-- The word of an operation with the fields it uses, the others zero (R61, R66). -/
def Operation.word (op : Operation) (a : RegId) (v : Byte) : CommandWord :=
  match op with
  | .select => commandWord 0x1 0 0
  | .deselect => commandWord 0x2 0 0
  | .txbyte => commandWord 0x3 0 v
  | .wrreg => commandWord 0x4 a v
  | .init => commandWord 0x5 0 0
  | .clear => commandWord 0x6 0 0
  | .render => commandWord 0x7 0 0
  | .tick => commandWord 0x8 0 0
  | .showGlyph => commandWord 0x9 0 v

/-- A row's pattern is its operation's word without operands, and its mask leaves out what the operands fill (R64). -/
theorem opcodeMap_pattern_mask : ∀ row ∈ opcodeMap,
    row.pattern = row.op.word 0 0 ∧ row.mask = ~~~(row.op.word 0xF 0xFF ^^^ row.op.word 0 0) := by decide

/-- A word that a row accepts has the row's `OP` and zero in the fields the row does not use (R64, R66). -/
theorem eq_word_of_accepts {row : OpcodeRow} (hrow : row ∈ opcodeMap) {cw : CommandWord} (h : row.accepts cw = true) :
    cw = row.op.word (aField cw) (vField cw) := by
  obtain ⟨hpattern, hmask⟩ := opcodeMap_pattern_mask row hrow
  obtain ⟨-, ha, hv⟩ := fields_of_accepts h
  have hop := opField_of_accepts hrow h
  have ha' : aField cw &&& 0xF#4 = aField cw := BitVec.and_allOnes
  have hv' : vField cw &&& 0xFF#8 = vField cw := BitVec.and_allOnes
  refine (commandWord_fields cw).symm.trans ?_
  rw [hpattern] at hop
  rw [hpattern, hmask] at ha hv
  cases hrowop : row.op <;> rw [hrowop] at hop ha hv
  case wrreg => exact commandWord_inj.2 ⟨hop, rfl, rfl⟩
  case txbyte | showGlyph => exact commandWord_inj.2 ⟨hop, ha'.symm.trans ha, rfl⟩
  case select | deselect | init | clear | render | tick =>
    exact commandWord_inj.2 ⟨hop, ha'.symm.trans ha, hv'.symm.trans hv⟩

theorem eq_word_of_findRow {cw : CommandWord} {row : OpcodeRow} (h : findRow cw = some row) :
    cw = row.op.word (aField cw) (vField cw) :=
  eq_word_of_accepts (List.mem_of_find?_eq_some h) (List.find?_some h :)

/-! ### Commands and their words -/

theorem decode_of_findRow {cw : CommandWord} {row : OpcodeRow} (h : findRow cw = some row) (ext : List CommandWord) :
    decode (cw :: ext) = readOperands row.op cw ext := by
  simp only [decode, h]

theorem decode_of_isReserved {cw : CommandWord} (h : IsReserved cw) (ext : List CommandWord) :
    decode (cw :: ext) = .error (.reserved cw) := by
  simp only [decode, (findRow_eq_none_iff cw).2 h]

/-- RENDER takes the four words after its own, whatever they are (R62). -/
theorem decode_render (e1 e2 e3 e4 : CommandWord) (rest : List CommandWord) :
    decode (0x7000#16 :: e1 :: e2 :: e3 :: e4 :: rest) = .ok (.render (rowsOfExtension e1 e2 e3 e4), rest) := rfl

/-- Settles O1: each command's first word matches the command's row, whose operands are the word's fields. -/
theorem encodedCommandDecodesBack : Obligations.EncodedCommandDecodesBack := by
  intro i rest
  cases i with
  | render rows => exact (decode_render _ _ _ _ rest).trans (by rw [rowsOfExtension_appends])
  | select | deselect | txbyte | wrreg | init | clear | tick | showGlyph =>
    simp [encode, decode, findRow_commandWord, readOperands]

/-- What the operands are read from, with the fields the operation does not use at zero, is the command's encoding. -/
theorem word_cons_eq_encode_append {op : Operation} {cw : CommandWord} {ext rest : List CommandWord} {i : Instr}
    (h : readOperands op cw ext = .ok (i, rest)) : op.word (aField cw) (vField cw) :: ext = encode i ++ rest := by
  cases op with
  | render =>
    match ext, h with
    | e1 :: e2 :: e3 :: e4 :: _, h =>
      cases h
      simp [Operation.word, encode, rowsOfExtension, highByte_append_lowByte]
  | select | deselect | txbyte | wrreg | init | clear | tick | showGlyph => cases h; rfl

/-- Settles O2: the first word is its row's word, and the operands are read from the rest of the command. -/
theorem decodedWordsAreTheEncoding : Obligations.DecodedWordsAreTheEncoding := by
  intro ws rest i h
  cases ws with
  | nil => cases h
  | cons cw ext =>
    cases hrow : findRow cw with
    | none => simp [decode, hrow] at h
    | some row =>
      rw [decode_of_findRow hrow] at h
      exact (congrArg (· :: ext) (eq_word_of_findRow hrow)).trans (word_cons_eq_encode_append h)

/-! ### Reserved words -/

theorem readOperands_ne_reserved (op : Operation) (cw cw' : CommandWord) (ext : List CommandWord) :
    readOperands op cw ext ≠ .error (.reserved cw') := by
  unfold readOperands
  repeat' split
  all_goals exact nofun

theorem decode_eq_reserved_iff (cw : CommandWord) (ext : List CommandWord) :
    decode (cw :: ext) = .error (.reserved cw) ↔ IsReserved cw := by
  refine ⟨fun h => ?_, fun h => decode_of_isReserved h ext⟩
  rw [← findRow_eq_none_iff]
  cases hrow : findRow cw with
  | none => rfl
  | some row => exact absurd ((decode_of_findRow hrow ext).symm.trans h) (readOperands_ne_reserved _ _ _ _)

theorem commandLength_eq_none_iff (cw : CommandWord) : commandLength cw = none ↔ IsReserved cw := by
  rw [commandLength, Option.map_eq_none_iff, findRow_eq_none_iff]

/-- A ready engine refuses a word without a length and changes nothing else (R66, R79, R111). -/
theorem step_of_commandLength_none {s : State} {cw : CommandWord} (hs : Ready s) (hw : wordAt s.cmd s.cpos = some cw)
    (hlen : commandLength cw = none) : step s = .next { s with refused := some (.reserved cw s.cpos) } :=
  step_of_refusal hs (by simp only [fetchCommand, hw, hlen])

/-- Settles O4: a word is rejected as reserved when it matches no row, and then it has no length. -/
theorem reservedWordsAreExactlyTheRefused : Obligations.ReservedWordsAreExactlyTheRefused :=
  ⟨decode_eq_reserved_iff, fun _ cw hs hw hres =>
    ⟨step_of_commandLength_none hs hw ((commandLength_eq_none_iff cw).2 hres), step_of_refused rfl⟩⟩

/-! ### Lengths -/

/-- RENDER is the operation of one word alone (R64). -/
theorem findRow_op_eq_render_iff {cw : CommandWord} {row : OpcodeRow} (h : findRow cw = some row) :
    row.op = .render ↔ cw = 0x7000#16 := by
  constructor
  · intro hop
    rw [eq_word_of_findRow h, hop]
    rfl
  · rintro rfl
    cases h
    rfl

theorem commandLength_eq (cw : CommandWord) :
    commandLength cw = if cw = 0x7000#16 then some 5 else if IsReserved cw then none else some 1 := by
  cases hlen : commandLength cw with
  | none =>
    have hres := (commandLength_eq_none_iff cw).1 hlen
    have hne : cw ≠ 0x7000#16 := by rintro rfl; cases hlen
    rw [if_neg hne, if_pos hres]
  | some len =>
    have hres : ¬ IsReserved cw := fun h => by simp [(commandLength_eq_none_iff cw).2 h] at hlen
    obtain ⟨row, hrow, rfl⟩ := findRow_of_commandLength hlen
    simp only [findRow_op_eq_render_iff hrow, if_neg hres]
    split <;> rfl

/-- The length that the first word gives is the number of words of the encoding (R63). -/
theorem commandLength_of_encode {i : Instr} {cw : CommandWord} (h : (encode i).head? = some cw) :
    commandLength cw = some (encode i).length := by
  cases i <;> (cases h; simp [commandLength, findRow_commandWord, encode])

/-- Settles O6: only RENDER's row has another length than one word, and a word without a row has none. -/
theorem firstWordGivesTheLength : Obligations.FirstWordGivesTheLength :=
  ⟨commandLength_eq, fun _ _ => commandLength_of_encode, fun _ _ hw hlen hs => step_of_commandLength_none hs hw hlen⟩

/-- Settles O7: the extension words' bytes are the rows, and a word is its two bytes. -/
theorem extensionWordsHoldTheRows : Obligations.ExtensionWordsHoldTheRows :=
  ⟨fun e1 e2 e3 e4 rest => ⟨_, decode_render e1 e2 e3 e4 rest, rfl, rfl, rfl, rfl, rfl, rfl, rfl, rfl⟩,
    fun hi lo => by simp [bytesOfWords], wordsOfBytes_bytesOfWords⟩

/-- Settles O8: the decoder evaluates to what is printed. -/
theorem sampleWordsDecodeAsPrinted : Obligations.SampleWordsDecodeAsPrinted :=
  ⟨rfl, rfl, rfl, rfl, rfl, rfl, rfl⟩

end Sys2Proof
end

section
/-!
PROOFS. The address byte on the wire (R72), and WRREG as raw commands (R70).
-/

namespace Sys2Proof.Machine

theorem addressByte_eq_append (a : RegId) : addressByte a = 0x0#4 ++ a := by
  revert a; decide

/-- Every address that a command's own frames name has a zero high half (R72): WRREG extends its `A`, and the other
commands name control registers and rows. -/
theorem highHalf_of_mem_commandFrames (i : Instr) (s : State) :
    ∀ f ∈ commandFrames i s, f.1.extractLsb' 4 4 = 0#4 := by
  have hrows : ∀ a ∈ (List.range 8).map fun r => BitVec.ofNat 8 (r + 1), a.extractLsb' 4 4 = 0#4 := by decide
  have hcontrol : ∀ a ∈ [0x09#8, 0x0B#8, 0x0A#8, 0x0C#8, 0x0F#8], a.extractLsb' 4 4 = 0#4 := by decide
  have hinit := List.forall_mem_append.2 ⟨hcontrol, hrows⟩
  cases i with
  | select | deselect | txbyte => exact nofun
  | wrreg a v =>
    have ha : (addressByte a).extractLsb' 4 4 = 0#4 := by
      rw [addressByte_eq_append]; exact BitVec.extractLsb'_append_eq_left
    exact List.forall_mem_singleton.2 ha
  | init => exact fun f hf => hinit f.1 (List.mem_map_of_mem (f := Prod.fst) hf)
  | clear | render | tick | showGlyph => exact fun f hf => hrows f.1 (List.mem_map_of_mem (f := Prod.fst) hf)

theorem exec_wrreg_trace {a : RegId} {v : Byte} {s t : State} (h : exec (.wrreg a v) s = .next t) :
    t.trace = s.trace ++ frameEvents (addressByte a) v := by
  cases h
  rw [sendFrame_eq]

/-- Settles O17: WRREG's frame carries the extended address, and a raw byte goes out as it is. -/
theorem addressByteIsZeroExtended : Obligations.AddressByteIsZeroExtended :=
  ⟨fun a _ _ _ h => addressByte_eq_append a ▸ exec_wrreg_trace h, highHalf_of_mem_commandFrames,
    fun v s => congrArg Host.Outcome.next (txByte_eq v s)⟩

/-- Settles O21: WRREG's frame is by definition the four raw commands one after another. -/
theorem writeRegisterIsTheRawSequence : Obligations.WriteRegisterIsTheRawSequence :=
  fun _ _ _ => ⟨_, _, _, _, rfl, rfl, rfl, rfl, rfl⟩

end Sys2Proof.Machine
end

section
/-!
PROOFS. The assembler (R68 to R70), on a line's terms and on its text.
-/

namespace Sys2Proof

/-! ### Lines as terms -/

theorem words_of_toInstr {l : AsmLine} {i : Instr} (h : l.toInstr = some i) : l.words = .ok (encode i) := by
  simp only [AsmLine.words, h]

/-- An operand out of range is an error, never truncated (R68). -/
theorem words_of_not_wf {l : AsmLine} (h : l.wf = false) : ∃ e, l.words = .error e := by
  have hnone : l.toInstr = none := by simp [AsmLine.toInstr, h]
  cases l with
  | sel | desel | init | clr | tick => cases h
  | tx | wr | showGlyph => exact ⟨.outOfRange, by simp only [AsmLine.words, hnone]⟩
  | render bs =>
    simp only [AsmLine.words, hnone]
    split <;> exact ⟨_, rfl⟩
  | word w =>
    have hw : wordInRange w = false := h
    exact ⟨.outOfRange, by simp [AsmLine.words, hnone, hw]⟩

theorem byteInRange_toNat (v : Byte) : byteInRange v.toNat = true :=
  decide_eq_true (Nat.le_of_lt_succ v.isLt)

theorem wf_toAsmLine (i : Instr) : i.toAsmLine.wf = true := by
  cases i with
  | txbyte v | showGlyph v => exact byteInRange_toNat v
  | wrreg a v =>
    have ha : regInRange a.toNat = true := decide_eq_true (Nat.le_of_lt_succ a.isLt)
    simp [Instr.toAsmLine, AsmLine.wf, ha, byteInRange_toNat]
  | render rows => simp [Instr.toAsmLine, AsmLine.wf, byteInRange_toNat]
  | select | deselect | init | clear | tick => rfl

/-- The line of a command stands for the command (R70). -/
theorem toInstr_toAsmLine (i : Instr) : i.toAsmLine.toInstr = some i := by
  unfold AsmLine.toInstr
  rw [if_pos (wf_toAsmLine i)]
  cases i with
  | txbyte v | wrreg a v | showGlyph v => simp [Instr.toAsmLine]
  | render rows =>
    have hrows : (Vector.ofFn fun r : Fin 8 => BitVec.ofNat 8 ((rows.toList.map BitVec.toNat).getD r 0)) = rows := by
      ext r hr : 1
      simp
    exact congrArg (fun rs => some (Instr.render rs)) hrows
  | select | deselect | init | clear | tick => rfl

theorem words_toAsmLine (i : Instr) : i.toAsmLine.words = .ok (encode i) := words_of_toInstr (toInstr_toAsmLine i)

theorem words_tx (n : Nat) : (AsmLine.tx n).words =
    if n ≤ 255 then .ok (encode (.txbyte (BitVec.ofNat 8 n))) else .error .outOfRange := by
  split <;> simp [AsmLine.words, AsmLine.toInstr, AsmLine.wf, byteInRange, *]

theorem words_showGlyph (n : Nat) : (AsmLine.showGlyph n).words =
    if n ≤ 255 then .ok (encode (.showGlyph (BitVec.ofNat 8 n))) else .error .outOfRange := by
  split <;> simp [AsmLine.words, AsmLine.toInstr, AsmLine.wf, byteInRange, *]

theorem words_wr (r n : Nat) : (AsmLine.wr r n).words = if r ≤ 15 ∧ n ≤ 255 then
    .ok (encode (.wrreg (BitVec.ofNat 4 r) (BitVec.ofNat 8 n))) else .error .outOfRange := by
  split <;> simp [AsmLine.words, AsmLine.toInstr, AsmLine.wf, byteInRange, regInRange, *]

theorem words_word (n : Nat) : (AsmLine.word n).words =
    if n ≤ 0xFFFF then .ok [BitVec.ofNat 16 n] else .error .outOfRange := by
  simp [AsmLine.words, AsmLine.toInstr, wordInRange]

theorem words_render (ns : List Nat) : (AsmLine.render ns).words =
    if ns.length ≠ 8 then .error .wrongOperandCount
    else if ∀ n ∈ ns, n ≤ 255 then .ok (encode (.render (Vector.ofFn fun r => BitVec.ofNat 8 (ns.getD r 0))))
    else .error .outOfRange := by
  have hwf : (AsmLine.render ns).wf = true ↔ ns.length = 8 ∧ ∀ n ∈ ns, n ≤ 255 := by simp [AsmLine.wf, byteInRange]
  have hnone : ¬ (AsmLine.render ns).wf = true → (AsmLine.render ns).words =
      if ns.length = 8 then .error .outOfRange else .error .wrongOperandCount := fun h => by
    simp only [AsmLine.words, AsmLine.toInstr, if_neg h]
  split_ifs with hlen hrange
  · rw [hnone fun h => hlen (hwf.1 h).1, if_neg hlen]
  · exact words_of_toInstr (by simp only [AsmLine.toInstr, if_pos (hwf.2 ⟨not_not.1 hlen, hrange⟩)])
  · rw [hnone fun h => hrange (hwf.1 h).2, if_pos (not_not.1 hlen)]

/-! ### Lines as text -/

/-- A written line assembles to the words of the line it reads as (R68). -/
theorem assembleLine_of_readLine {m : String} {ops : List (List Char)} {l : AsmLine}
    (hm : m ∈ ["sel", "desel", "tx", "wr", "init", "clr", "render", "tick", "show", ".word"])
    (hops : ∀ o ∈ ops, PlainText o) (h : readLine m.toList ops = .ok l) :
    assembleLine (lineText m.toList ops) = l.words := by
  rw [assembleLine_lineText (mnemonic_plain hm) hops, h]

section
variable {r n : Nat} {reg text : List Char} (hreg : PlainText reg) (htext : PlainText text)
  (hr : readRegister reg = some r) (hn : readNumber text = some n)
include htext

include hn in
theorem assembleLine_tx : assembleLine (lineText "tx".toList [text]) = (AsmLine.tx n).words :=
  assembleLine_of_readLine (by simp) (List.forall_mem_singleton.2 htext) (by simp [readLine, oneNumber, hn])

include hn in
theorem assembleLine_show : assembleLine (lineText "show".toList [text]) = (AsmLine.showGlyph n).words :=
  assembleLine_of_readLine (by simp) (List.forall_mem_singleton.2 htext) (by simp [readLine, oneNumber, hn])

include hreg hr hn in
theorem assembleLine_wr : assembleLine (lineText "wr".toList [reg, text]) = (AsmLine.wr r n).words :=
  assembleLine_of_readLine (by simp) (List.forall_mem_cons.2 ⟨hreg, List.forall_mem_singleton.2 htext⟩)
    (by simp [readLine, hr, hn])

theorem assembleLine_word (h : readHex text = some n) :
    assembleLine (lineText ".word".toList [text]) = (AsmLine.word n).words :=
  assembleLine_of_readLine (by simp) (List.forall_mem_singleton.2 htext) (by simp [readLine, h])

end

theorem assembleLine_render {ns : List Nat} {texts : List (List Char)} (htexts : ∀ o ∈ texts, PlainText o)
    (h : readNumbers texts = some ns) :
    assembleLine (lineText "render".toList texts) = (AsmLine.render ns).words :=
  assembleLine_of_readLine (by simp) htexts (by simp [readLine, h])

/-- The source line of a command assembles to its words (R68, R70). -/
theorem assembleLine_sourceText (i : Instr) : assembleLine i.sourceText = .ok (encode i) := by
  refine Eq.trans ?_ (words_toAsmLine i)
  cases i with
  | txbyte v => exact assembleLine_tx (byteText_plain v) (readNumber_byteText v)
  | wrreg a v =>
    have hr : readRegister (byteText (a.zeroExtend 8)) = some a.toNat := by
      rw [readRegister_byteText, BitVec.toNat_setWidth_of_le (by decide)]
    exact assembleLine_wr (byteText_plain _) (byteText_plain v) hr (readNumber_byteText v)
  | render rows => exact assembleLine_render (List.forall_mem_map.2 fun v _ => byteText_plain v) (readNumbers_byteText _)
  | showGlyph v => exact assembleLine_show (byteText_plain v) (readNumber_byteText v)
  | select | deselect | init | clear | tick =>
    unfold Instr.sourceText
    exact assembleLine_of_readLine (by simp) (List.forall_mem_nil _) (by simp [readLine, noOperand, Instr.toAsmLine])

theorem assemble_sourceText (is : List Instr) : assemble (is.map Instr.sourceText) = .ok (is.flatMap encode) := by
  induction is with
  | nil => rfl
  | cons i is ih => simp only [List.map_cons, assemble, assembleLine_sourceText, ih, List.flatMap_cons]

/-- A comment does not count (R68). -/
theorem withoutComment_append (text comment : List Char) :
    withoutComment (text ++ ';' :: comment) = withoutComment text := by
  unfold withoutComment
  induction text with
  | nil => rfl
  | cons c text ih => simp only [List.cons_append, List.takeWhile_cons, ih]

theorem assembleLine_append_comment (text comment : List Char) :
    assembleLine (text ++ ';' :: comment) = assembleLine text := by
  simp only [assembleLine, readSource, withoutComment_append]

/-- The texts that assemble: the empty ones, and those that read as a line with its operands in range (R68). -/
theorem assembleLine_eq_ok_iff (text : List Char) (ws : List CommandWord) : assembleLine text = .ok ws ↔
    (readSource text = .ok none ∧ ws = []) ∨ ∃ l, readSource text = .ok (some l) ∧ l.wf = true ∧ l.words = .ok ws := by
  have hwf : ∀ l : AsmLine, l.words = .ok ws → l.wf = true := by
    intro l h
    by_contra hl
    obtain ⟨e, he⟩ := words_of_not_wf (Bool.eq_false_of_not_eq_true hl)
    cases he.symm.trans h
  unfold assembleLine
  match readSource text with
  | .ok none => simp
  | .ok (some l) => simpa using hwf l
  | .error e => simp

theorem plainText_of_forall₂ {ns : List Nat} {texts : List (List Char)} (h : List.Forall₂ IsNumberText ns texts) :
    ∀ o ∈ texts, PlainText o := by
  induction h with
  | nil => exact nofun
  | cons hn _ ih => exact List.forall_mem_cons.2 ⟨isNumberText_plain hn, ih⟩

/-- Settles O9: each form of text reads as its line, and each line's words are its command's. -/
theorem assemblerIsFaithful : Obligations.AssemblerIsFaithful := by
  refine ⟨fun i => ⟨wf_toAsmLine i, toInstr_toAsmLine i, words_toAsmLine i⟩, fun _ => words_of_not_wf, ?word, ?words,
    assemble_sourceText, ?number, ?wr, ?names, ?render, assembleLine_append_comment, assembleLine_eq_ok_iff⟩
  case word =>
    intro w
    have hw : (AsmLine.word w.toNat).words = .ok [w] := by
      rw [words_word, if_pos (Nat.le_of_lt_succ w.isLt), BitVec.ofNat_toNat, BitVec.setWidth_eq]
    exact ⟨hw, (assembleLine_word (wordText_plain w) (readHex_wordText w)).trans hw⟩
  case words =>
    intro n k
    rw [assembleLine_word (isNumberText_plain (.inr ⟨k, rfl⟩)) (readHex_zeros n k), words_word]
  case number =>
    intro n text h
    rw [assembleLine_tx (isNumberText_plain h) (readNumber_of_isNumberText h),
      assembleLine_show (isNumberText_plain h) (readNumber_of_isNumberText h)]
    exact ⟨words_tx n, words_showGlyph n⟩
  case wr =>
    intro r n reg text hr h
    rw [assembleLine_wr (isNumberText_plain hr) (isNumberText_plain h) (readRegister_of_isNumberText hr)
      (readNumber_of_isNumberText h), words_wr]
  case names =>
    intro p hp n text h
    obtain ⟨hplain, hreg⟩ := registerName_spec (p := (p.1, p.2.toNat))
      (List.mem_map_of_mem (f := Prod.map id BitVec.toNat) hp)
    have hle : p.2.toNat ≤ 15 := Nat.le_of_lt_succ p.2.isLt
    rw [assembleLine_wr hplain (isNumberText_plain h) hreg (readNumber_of_isNumberText h), words_wr]
    simp [hle]
  case render =>
    intro ns texts h
    rw [assembleLine_render (plainText_of_forall₂ h) (readNumbers_of_isNumberText h), words_render]

end Sys2Proof
end

section
/-!
PROOFS. The command cycle (R79): which words the fetch finds, and where a stream ends.
-/

namespace Sys2Proof.Machine

/-! ### The words at a position -/

theorem head?_wordsFrom_succ (c : CommandStream) (k n : Nat) : (wordsFrom c k (n + 1)).head? = wordAt c k := by
  rw [wordsFrom_succ]
  cases wordAt c k <;> rfl

/-- Fewer words from a position are the first of more words from there. -/
theorem take_wordsFrom (c : CommandStream) {m n : Nat} (h : m ≤ n) (k : Nat) :
    (wordsFrom c k n).take m = wordsFrom c k m := by
  induction m generalizing k n with
  | zero => rfl
  | succ m ih =>
    obtain ⟨n, rfl⟩ := Nat.exists_eq_add_of_le' (Nat.le_of_add_left_le h)
    rw [wordsFrom_succ, wordsFrom_succ]
    cases wordAt c k with
    | none => rfl
    | some w => exact congrArg (w :: ·) (ih (Nat.le_of_succ_le_succ h) (k + 1))

/-- A command is at least one word and at most five (R60). -/
theorem encode_length : ∀ i : Instr, 1 ≤ (encode i).length ∧ (encode i).length ≤ longestCommand
  | .select => Laws.WordCount.select
  | .deselect => Laws.WordCount.deselect
  | .txbyte v => Laws.WordCount.txbyte v
  | .wrreg a v => Laws.WordCount.wrreg a v
  | .init => Laws.WordCount.init
  | .clear => Laws.WordCount.clear
  | .render rows => Laws.WordCount.render rows
  | .tick => Laws.WordCount.tick
  | .showGlyph v => Laws.WordCount.showGlyph v

/-- The fetch finds the command whose words stand at `CPOS`, with its length (R63, R79). -/
theorem fetchCommand_of_decode {s : State} {i : Instr} {rest : List CommandWord}
    (h : decode (wordsFrom s.cmd s.cpos longestCommand) = .ok (i, rest)) :
    fetchCommand s = .command i (encode i).length := by
  obtain ⟨hpos, hle⟩ := encode_length i
  have hwords : wordsFrom s.cmd s.cpos (encode i).length = encode i := by
    rw [← take_wordsFrom s.cmd hle, decodedWordsAreTheEncoding _ _ _ h, List.take_left]
  have hdecode : decode (encode i) = .ok (i, []) := by simpa using encodedCommandDecodesBack i []
  obtain ⟨cw, ext, hcons⟩ := List.exists_cons_of_length_pos hpos
  have hword : wordAt s.cmd s.cpos = some cw :=
    (head?_wordsFrom_succ s.cmd s.cpos ext.length).symm.trans (congrArg List.head? (hcons ▸ hwords))
  have hlen : commandLength cw = some (encode i).length := commandLength_of_encode (by rw [hcons]; rfl)
  simp only [fetchCommand, hword, hlen, hwords, hdecode]

/-- Settles O35: the fetch finds the decoded command, and the end of the cycle moves `CPOS` past its words. -/
theorem stepRunsTheDecodedCommand : Obligations.StepRunsTheDecodedCommand := by
  intro s i rest hs h
  rw [step_of_command hs (fetchCommand_of_decode h)]
  cases exec i s <;> rfl

/-! ### A stream that ends -/

/-- The words of a command that are not all in the stream decode to no command (R79, R114). -/
theorem fetchCommand_truncated {s : State} {cw : CommandWord} {len n : Nat} (hw : wordAt s.cmd s.cpos = some cw)
    (hlen : commandLength cw = some len) (hn : streamLength s.cmd = some n) (hend : n < s.cpos + len) :
    fetchCommand s = .refusal (.truncated s.cpos) := by
  have hpos : s.cpos < n := (wordAt_isSome_iff hn s.cpos).1 (by rw [hw]; rfl)
  cases hd : decode (wordsFrom s.cmd s.cpos len) with
  | ok p =>
    have hf : fetchCommand s = .command p.1 len := by simp only [fetchCommand, hw, hlen, hd]
    have := fetched_inside hf hn hpos.le
    omega
  | error e => simp only [fetchCommand, hw, hlen, hd]

/-- Settles O5: RENDER is five words long. -/
theorem truncatedRenderIsRefused : Obligations.TruncatedRenderIsRefused :=
  fun _ _ hs hw hn hend => step_of_refusal hs (fetchCommand_truncated hw rfl hn hend)

/-- A stream without a word at a position is finite and ends there or before (R79). -/
theorem streamLength_of_wordAt_none {c : CommandStream} {k : Nat} (h : wordAt c k = none) :
    ∃ n, streamLength c = some n ∧ n ≤ k := by
  cases hn : streamLength c with
  | some n =>
    have := wordAt_isSome_iff hn k
    exact ⟨n, rfl, Nat.le_of_not_lt fun hlt => by simpa [h] using this.2 hlt⟩
  | none =>
    have hloop : 0 < c.loop.length := by
      simpa [streamLength, List.length_pos_iff] using hn
    have hsome := List.getElem?_eq_getElem (Nat.mod_lt (k - c.head.length) hloop)
    unfold wordAt at h
    split at h
    · cases h
    · cases hsome.symm.trans h

/-- Where the invariant finds no word is the end of the stream (R142). -/
theorem streamLength_eq_cpos {s : State} (hs : CposInStream s) (hw : wordAt s.cmd s.cpos = none) :
    streamLength s.cmd = some s.cpos := by
  obtain ⟨n, hn, hle⟩ := streamLength_of_wordAt_none hw
  rw [hn, Nat.le_antisymm hle (hs n hn).1]

theorem fetchCommand_stop {s : State} {f : Fault} (h : fetchCommand s = .stop f) :
    wordAt s.cmd s.cpos = none ∧ f = if streamLength s.cmd = some s.cpos then .endOfRun else .cposOutsideStream := by
  unfold fetchCommand at h
  split at h
  · rename_i hw
    cases h
    exact ⟨hw, rfl⟩
  · split at h
    · cases h
    · split at h <;> cases h

/-- Only the fetch of a ready engine raises a fault (R79). -/
theorem fetchCommand_of_step_fault {s : State} {f : Fault} (h : step s = .fault f) :
    Ready s ∧ fetchCommand s = .stop f := by
  cases hr : s.refused with
  | some c => cases (step_of_refused hr).symm.trans h
  | none =>
    cases hp : s.phase with
    | waiting => cases (step_of_waiting hr hp).symm.trans h
    | ready =>
      have hs : Ready s := ⟨hr, hp⟩
      refine ⟨hs, ?_⟩
      cases hf : fetchCommand s with
      | stop g => cases (step_of_stop hs hf).symm.trans h; rfl
      | refusal c => cases (step_of_refusal hs hf).symm.trans h
      | command i len =>
        obtain ⟨t, ht⟩ := exec_next i s
        rw [step_of_command hs hf, ht] at h
        cases h

theorem status_of_wordAt_none {s : State} (hs : Ready s) (hw : wordAt s.cmd s.cpos = none) :
    s.status = if streamLength s.cmd = some s.cpos then .normalEnd else .outsideStream := by
  simp [State.status, State.isRefused, hs.1, hs.2, hw]

/-- A run is outside its stream only where a ready machine finds no word short of an end (R142). -/
theorem streamLength_ne_of_outsideStream {s : State} (h : s.status = .outsideStream) :
    wordAt s.cmd s.cpos = none ∧ streamLength s.cmd ≠ some s.cpos := by
  unfold State.status at h
  split_ifs at h with _ _ hw hn
  exact ⟨by simpa using hw, hn⟩

/-- Settles O47: where a state of the invariant has no word its stream ends. -/
theorem runsStayInsideTheStream : Obligations.RunsStayInsideTheStream := by
  rintro s ⟨-, hpos⟩
  refine ⟨fun h => ?_, fun h => ?_, fun hs hw => ?_⟩
  · obtain ⟨hw, hn⟩ := streamLength_ne_of_outsideStream h
    exact hn (streamLength_eq_cpos hpos hw)
  · obtain ⟨hw, hf⟩ := fetchCommand_stop (fetchCommand_of_step_fault h).2
    rw [if_pos (streamLength_eq_cpos hpos hw)] at hf
    cases hf
  · rw [status_of_wordAt_none hs hw, if_pos (streamLength_eq_cpos hpos hw)]

end Sys2Proof.Machine
end

section
/-!
PROOFS. The Serial Link commands (R80 to R84): what each does to the lines and the trace, what the receiver makes of it,
and raw transfers.
-/

namespace Sys2Proof.Machine

/-! ### Words -/

/-- A word whose `OP` takes no operand, other than the command's own word, is reserved (R66). -/
theorem isReserved_of_ne_commandWord {cw : CommandWord} {op : BitVec 4} (hop : opField cw = op)
    (hmem : op ∈ [0x1#4, 0x2#4, 0x5#4, 0x6#4, 0x7#4, 0x8#4]) (hne : cw ≠ commandWord op 0 0) : IsReserved cw := by
  refine .inr (.inl ⟨hop ▸ hmem, ?_⟩)
  by_contra hzero
  obtain ⟨ha, hv⟩ := not_or.1 hzero
  apply hne
  rw [← commandWord_fields cw, hop, not_not.1 ha, not_not.1 hv]

theorem receiverAfter_eq (s : State) (es : List Event) : s.receiverAfter es = s.receiver.after es :=
  receiverView_append _ _ _ _

/-! ### Chip select -/

/-- A chip-select write without an edge does not reach the receiver (R80, R81). -/
theorem receiverAfter_cs_same {s : State} (h : LinesAgree s) : s.receiverAfter [.pin .cs s.cs] = s.receiver := by
  rw [receiverAfter_eq, ← h.1]
  exact onEvent_cs_same s.receiver

/-- Settles O11: SELECT is one pin write. -/
theorem selectDrivesChipSelectLow : Obligations.SelectDrivesChipSelectLow :=
  ⟨fun _ => rfl, fun _ h hcs => hcs ▸ receiverAfter_cs_same h, encodedCommandDecodesBack .select,
    fun _ rest hop hne => decode_of_isReserved (isReserved_of_ne_commandWord hop (by decide) hne) rest⟩

theorem closeFrame_frames (r : Receiver) : r.closeFrame.frames = r.frames ++
    [if r.isOpen ∧ r.bits.length = 16 then .frame (byteOfBits (r.bits.take 8)) (byteOfBits (r.bits.drop 8))
      else .corrupt] := by
  unfold Receiver.closeFrame
  split <;> simp [Receiver.log, Receiver.havoc, *]

/-- A rising edge of CS closes the open frame, as it is while CS is low (R53, R81). -/
theorem receiverAfter_deselect_frames {s : State} (h : LinesAgree s) (hcs : s.cs = false) :
    (s.receiverAfter [.pin .cs true]).frames = s.receiver.closeFrame.frames := by
  have hlow : s.receiver.cs = false := h.1.trans hcs
  simp [receiverAfter_eq, Receiver.onEvent, hlow]

theorem receiver_isOpen (s : State) : s.receiver.isOpen = !s.receiver.cs := receiverView_isOpen _ _ _

/-- Settles O12: DESELECT is one pin write, and its rising edge closes the frame that is open while CS is low. -/
theorem deselectDrivesChipSelectHigh : Obligations.DeselectDrivesChipSelectHigh := by
  refine ⟨fun _ => rfl, fun _ h hcs => hcs ▸ receiverAfter_cs_same h, fun s h hcs => ?_,
    encodedCommandDecodesBack .deselect,
    fun _ rest hop hne => decode_of_isReserved (isReserved_of_ne_commandWord hop (by decide) hne) rest⟩
  have hopen : s.receiver.isOpen = true := by rw [receiver_isOpen, h.1, hcs]; rfl
  simp [receiverAfter_deselect_frames h hcs, closeFrame_frames, hopen]

/-! ### Bytes -/

theorem exec_txbyte (v : Byte) (s : State) :
    exec (.txbyte v) s = .next { s with clk := true, din := v.getLsbD 0, trace := s.trace ++ txEvents v } :=
  congrArg Host.Outcome.next (txByte_eq v s)

/-- Settles O13: TXBYTE is its 24 events, sampled with CS low and stray with CS high. -/
theorem transmitByteSendsItsBits : Obligations.TransmitByteSendsItsBits := by
  refine ⟨exec_txbyte, fun _ => rfl, fun v s h hcs => ?_, fun v s h hcs => ?_,
    fun v => encodedCommandDecodesBack (.txbyte v), fun _ rest hop ha => ?_⟩
  · rw [receiverAfter_eq, after_txEvents_high _ v (h.1.trans hcs)]
    exact ⟨rfl, read_unknown⟩
  · rw [receiverAfter_eq, after_txEvents_low _ v (h.1.trans hcs)]
    rfl
  · exact decode_of_isReserved (.inr (.inr ⟨by simp [hop], ha⟩)) rest

/-- Settles O14: the events and levels of each command are written out, before any state. -/
theorem linkCommandsReadOnlyTheirOperand : Obligations.LinkCommandsReadOnlyTheirOperand := by
  intro i hi
  cases i with
  | select => exact ⟨[.pin .cs false], some false, none, none, rfl, fun _ => rfl⟩
  | deselect => exact ⟨[.pin .cs true], some true, none, none, rfl, fun _ => rfl⟩
  | txbyte v => exact ⟨txEvents v, none, some true, some (v.getLsbD 0), rfl, exec_txbyte v⟩
  | wrreg | init | clear | render | tick | showGlyph => cases hi

/-! ### Raw transfers -/

/-- The events of a raw transfer: SELECT, bytes, DESELECT (R83). -/
def transferEvents (vs : List Byte) : List Event := .pin .cs false :: (vs.flatMap txEvents ++ [.pin .cs true])

/-- A transfer of two bytes has the events of a frame (R73). -/
theorem transferEvents_pair (a d : Byte) : transferEvents [a, d] = frameEvents a d := rfl

/-- A command that leaves the engine ready is followed by the next one (R47). -/
theorem runCommands_cons {i : Instr} {s t : State} (h : exec i s = .next t) (hp : t.phase = .ready) (is : List Instr) :
    runCommands (i :: is) s = runCommands is (finishCommand (encode i).length t) := by
  simp only [runCommands, h, hp]

/-- Bytes one after another append their events and leave CS alone (R82). -/
theorem runCommands_txbytes (vs : List Byte) (is : List Instr) {s : State} (hp : s.phase = .ready) :
    ∃ t, runCommands (vs.map .txbyte ++ is) s = runCommands is t ∧ t.phase = .ready ∧ t.build = s.build ∧
      t.trace = s.trace ++ vs.flatMap txEvents := by
  induction vs generalizing s with
  | nil => exact ⟨s, rfl, hp, rfl, (List.append_nil _).symm⟩
  | cons v vs ih =>
    obtain ⟨t, hrun, hp', hb, htr⟩ := ih (s := finishCommand 1 { s with
      clk := true, din := v.getLsbD 0, trace := s.trace ++ txEvents v }) (by simpa using hp)
    refine ⟨t, (runCommands_cons (exec_txbyte v s) hp _).trans hrun, hp', by simpa using hb, by simpa using htr⟩

/-- A raw transfer completes with CS high, and its events are those of its commands (R80 to R83). -/
theorem runCommands_transfer (vs : List Byte) {s : State} (hp : s.phase = .ready) :
    ∃ t, runCommands ([.select] ++ vs.map .txbyte ++ [.deselect]) s = .next t ∧ t.cs = true ∧ t.build = s.build ∧
      t.trace = s.trace ++ transferEvents vs := by
  obtain ⟨u, hrun, hpu, hb, htr⟩ := runCommands_txbytes vs [.deselect]
    (s := finishCommand 1 (pinWrite .cs false s)) (by simpa [pinWrite] using hp)
  refine ⟨finishCommand 1 (pinWrite .cs true u), ?_, by simp [pinWrite], ?_, ?_⟩
  · exact (runCommands_cons (i := .select) (t := pinWrite .cs false s) rfl hp _).trans
      (hrun.trans (runCommands_cons (i := .deselect) (t := pinWrite .cs true u) rfl hpu []))
  · simpa [pinWrite_build] using hb
  · simp [pinWrite_trace, htr, transferEvents]

/-- Bytes sent while CS is low are only sampled: eight bits each (R53). -/
theorem after_txEvents_flatMap (vs : List Byte) {r : Receiver} (h : r.cs = false) :
    (r.after (vs.flatMap txEvents)).cs = false ∧ (r.after (vs.flatMap txEvents)).frames = r.frames ∧
      (r.after (vs.flatMap txEvents)).bits.length = r.bits.length + 8 * vs.length := by
  induction vs generalizing r with
  | nil => exact ⟨h, rfl, rfl⟩
  | cons v vs ih =>
    rw [List.flatMap_cons, after_append, after_txEvents_low r v h]
    obtain ⟨hcs, hframes, hbits⟩ := ih (r := { r with
      clk := true, din := v.getLsbD 0, bits := r.bits ++ msbFirst v }) h
    refine ⟨hcs, hframes, hbits.trans ?_⟩
    simp only [List.length_append, msbFirst_length, List.length_cons]
    omega

/-- A transfer of other than two bytes is a corrupt frame (R53, R57). -/
theorem after_transferEvents_corrupt {vs : List Byte} (hlen : vs.length ≠ 2) {r : Receiver} (h : r.cs = true) :
    (r.after (transferEvents vs)).frames = r.frames ++ [.corrupt] ∧
      (r.after (transferEvents vs)).devreg = DevReg.unknown := by
  have hsplit : r.after (transferEvents vs) = Receiver.onEvent
      (Receiver.after { r with cs := false, bits := [], isOpen := true } (vs.flatMap txEvents)) (.pin .cs true) := by
    rw [← onEvent_select r h]
    exact after_append _ _ _
  obtain ⟨hcs, hframes, hbits⟩ := after_txEvents_flatMap vs (r := { r with cs := false, bits := [], isOpen := true }) rfl
  rw [hsplit, onEvent_deselect_corrupt _ hcs (by rw [hbits]; simp; omega)]
  exact ⟨congrArg (· ++ [.corrupt]) hframes, rfl⟩

theorem recognised_iff (a : Byte) : recognised a = true ↔
    a ∈ [0x01#8, 0x02#8, 0x03#8, 0x04#8, 0x05#8, 0x06#8, 0x07#8, 0x08#8, 0x09#8, 0x0A#8, 0x0B#8, 0x0C#8, 0x0F#8] :=
  List.contains_iff_mem

/-- The registers after any frame: a recognised address takes the data, any other makes every one UNKNOWN (R56). -/
theorem read_applyFrame_eq (r : Receiver) (a d x : Byte) : (r.applyFrame a d).devreg.read x =
    if recognised a = true then (if x = a then some d else r.devreg.read x) else none := by
  split
  case isTrue h => exact read_applyFrame r h x
  case isFalse h =>
    rw [Receiver.applyFrame, if_neg h]
    exact read_unknown x

/-- Settles O15: two bytes between SELECT and DESELECT have the events of a frame, and any other number leaves other than
sixteen bits to close. -/
theorem rawTransferIsAFrameOfTwoBytes : Obligations.RawTransferIsAFrameOfTwoBytes := by
  intro vs s hlines hcs hs
  obtain ⟨t, hrun, htcs, hb, htr⟩ := runCommands_transfer vs hs.2
  have hr : s.receiver.cs = true := hlines.1.trans hcs
  have hrecv : t.receiver = s.receiver.after (transferEvents vs) := receiver_of_trace_append hb htr
  refine ⟨t, hrun, htcs, ?_, fun hlen => ?_⟩
  · rintro a d rfl
    rw [hrecv, transferEvents_pair, after_frameEvents _ a d hr]
    simp only [← recognised_iff]
    exact ⟨applyFrame_frames _ a d, read_applyFrame_eq _ a d⟩
  · obtain ⟨hframes, hregs⟩ := after_transferEvents_corrupt hlen hr
    rw [hrecv, hframes, hregs]
    exact ⟨rfl, read_unknown⟩

end Sys2Proof.Machine
end

section
/-!
PROOFS. The Device Controller commands (R90 to R95): the frames each sends, the state it leaves, and what the receiver
makes of them.
-/

namespace Sys2Proof.Machine

/-! ### Lists of frames -/

/-- A frame is 50 events (R73). -/
theorem framesEvents_length (fs : List (Byte × Byte)) : (framesEvents fs).length = 50 * fs.length := by
  induction fs with
  | nil => rfl
  | cons f fs ih =>
    have hframe : (frameEvents f.1 f.2).length = 50 := rfl
    rw [framesEvents_cons, List.length_append, ih, hframe, List.length_cons]
    omega

theorem sendFrames_append (fs gs : List (Byte × Byte)) (s : State) :
    sendFrames (fs ++ gs) s = sendFrames gs (sendFrames fs s) :=
  List.foldl_append

/-- RENDER's frames as R94 lists them. -/
theorem commandFrames_render (rows : Vector Byte 8) (s : State) :
    commandFrames (.render rows) s = rowFrames rows.toList := by
  rw [rowFrames_toList]
  rfl

/-- A glyph's frames are RENDER's frames of its eight bytes (R94, R101). -/
theorem rowFrames_glyphBytes (b : Build) (i : Nat) :
    rowFrames (Vector.ofFn fun r : Fin 8 => glyphByte b i r.val).toList = glyphFrames b i := rfl

theorem recognised_glyphFrames (b : Build) (i : Nat) : ∀ f ∈ glyphFrames b i, recognised f.1 = true :=
  rowFrames_glyphBytes b i ▸ recognised_rowFrames _

/-- Only WRREG can name an address that is not recognised (R95): the other commands name control registers and rows. -/
theorem recognised_of_mem_commandFrames {i : Instr} (hi : ∀ a v, i ≠ .wrreg a v) (s : State) :
    ∀ f ∈ commandFrames i s, recognised f.1 = true := by
  cases i with
  | select | deselect | txbyte => exact nofun
  | wrreg a v => exact absurd rfl (hi a v)
  | init => exact recognised_initFrames s.build
  | clear => exact recognised_rowFrames (Vector.replicate 8 0)
  | render rows => rw [commandFrames_render]; exact recognised_rowFrames rows
  | tick | showGlyph => exact recognised_glyphFrames s.build _

/-! ### What each command answers -/

theorem exec_wrreg (a : RegId) (v : Byte) (s : State) : exec (.wrreg a v) s = .next { s with
    cs := true, clk := true, din := v.getLsbD 0, trace := s.trace ++ frameEvents (addressByte a) v } :=
  congrArg Host.Outcome.next (sendFrame_eq (addressByte a) v s)

/-- RENDER's last frame is row 7's (R94). -/
theorem exec_render (rows : Vector Byte 8) (s : State) : exec (.render rows) s = .next { s with
    cs := true, clk := true, din := rows[7].getLsbD 0, trace := s.trace ++ framesEvents (rowFrames rows.toList) } := by
  have hframes := sendFrames_eq [(0x01#8, rows[0]), (0x02#8, rows[1]), (0x03#8, rows[2]), (0x04#8, rows[3]),
    (0x05#8, rows[4]), (0x06#8, rows[5]), (0x07#8, rows[6])] 0x08#8 rows[7] s
  rw [exec, execRender, rowFrames_toList]
  exact congrArg Host.Outcome.next hframes

/-- CLEAR is RENDER of eight zero rows (R93). -/
theorem exec_clear_eq_render (s : State) : exec .clear s = exec (.render (Vector.replicate 8 0x00#8)) s := rfl

theorem exec_init (s : State) : exec .init s = .next { s with
    cs := true, clk := true, din := false, trace := s.trace ++ framesEvents (initFrames s.build) } :=
  congrArg Host.Outcome.next (sendFrames_eq (initFrames s.build).dropLast 0x08#8 0x00#8 s)

/-- SHOW in a build in range sends the glyph it clamps to (R102). -/
theorem exec_showGlyph {s : State} (h : s.build.wf) (v : Byte) :
    exec (.showGlyph v) s = .next (sendFrames (glyphFrames s.build (clampIndex s.build v)) s) := by
  rw [exec, execShowGlyph, renderGlyph_ok h (clampIndex_lt h.1 v)]
  rfl

/-- TICK in a build in range sends the glyph its cursor clamps to and requests its wait (R101). -/
theorem exec_tick {s : State} (h : s.build.wf) : exec .tick s =
    .next (waitMs Config.tickMs (sendFrames (glyphFrames s.build (clampIndex s.build s.cursor)) s)) := by
  rw [exec, execTick, renderGlyph_ok h (clampIndex_lt h.1 s.cursor)]
  rfl

/-- A controller or sequencer command sends the frames its rule lists, and TICK requests its wait after them (R95). -/
theorem exec_eq_sendFrames {i : Instr} (hi : isRawLink i = false) {s : State} (h : s.build.wf) :
    exec i s = .next (requestWait i (sendFrames (commandFrames i s) s)) := by
  cases i with
  | select | deselect | txbyte => cases hi
  | wrreg | init | clear => rfl
  | render rows => rw [commandFrames_render]; rfl
  | tick => exact exec_tick h
  | showGlyph v => exact exec_showGlyph h v

/-! ### WRREG -/

/-- A register id names a register R56 lists, but for 0, D and E (R74). -/
theorem recognised_addressByte_iff (a : RegId) : recognised (addressByte a) = true ↔ a ∉ [0x0#4, 0xD#4, 0xE#4] := by
  revert a; decide

/-- A frame sent while CS is low opens no frame of its own: its bits follow those sampled before, and then CS rises
(R90). -/
theorem after_frameEvents_low {r : Receiver} (h : r.cs = false) (a d : Byte) : ∃ q : Receiver,
    r.after (frameEvents a d) = q.onEvent (.pin .cs true) ∧ q.cs = false ∧ q.isOpen = r.isOpen ∧ q.frames = r.frames ∧
      q.bits = r.bits ++ msbFirst a ++ msbFirst d := by
  have hselect : r.after [.pin .cs false] = r := h ▸ onEvent_cs_same r
  refine ⟨{ r with clk := true, din := d.getLsbD 0, bits := r.bits ++ msbFirst a ++ msbFirst d }, ?_, h, rfl, rfl, rfl⟩
  rw [frameEvents, after_append, after_append, after_append, hselect, after_txEvents_low r a h,
    after_txEvents_low { r with clk := true, din := a.getLsbD 0, bits := r.bits ++ msbFirst a } d h]
  rfl

/-- Such a frame is well-formed only if no bit was sampled before it (R53, R90). -/
theorem frames_after_frameEvents_low {r : Receiver} (h : r.cs = false) (ho : r.isOpen = true) (a d : Byte) :
    (r.after (frameEvents a d)).frames = r.frames ++ [if r.bits = [] then .frame a d else .corrupt] := by
  obtain ⟨q, hq, hcs, hopen, hframes, hbits⟩ := after_frameEvents_low h a d
  rw [hq, ← hframes]
  split
  case isTrue hnone =>
    rw [onEvent_deselect_frame q a d hcs (hopen.trans ho) (by rw [hbits, hnone]; rfl)]
    exact applyFrame_frames _ a d
  case isFalse hsome =>
    have hpos := List.length_pos_iff.2 hsome
    have hlen : q.bits.length ≠ 16 := by
      simp only [hbits, List.length_append, msbFirst_length]
      omega
    rw [onEvent_deselect_corrupt q hcs hlen]

/-- Settles O16: WRREG is one frame, which a receiver that was deselected takes whole. -/
theorem writeRegisterSendsOneFrame : Obligations.WriteRegisterSendsOneFrame := by
  refine ⟨exec_wrreg, fun _ _ => rfl, fun a v s h hcs => ?_, fun a v s h hcs => ?_, fun a v x s h hcs => ?_,
    fun a v => encodedCommandDecodesBack (.wrreg a v)⟩
  · rw [receiverAfter_eq, after_frameEvents _ _ v (h.1.trans hcs)]
    exact applyFrame_frames _ _ v
  · have hopen : s.receiver.isOpen = true := by rw [receiver_isOpen, h.1, hcs]; rfl
    rw [receiverAfter_eq]
    exact frames_after_frameEvents_low (h.1.trans hcs) hopen _ v
  · rw [receiverAfter_eq, after_frameEvents _ _ v (h.1.trans hcs)]
    exact (read_applyFrame_eq _ (addressByte a) v x).trans (by simp only [recognised_addressByte_iff, ite_not]; rfl)

/-! ### INIT -/

/-- INIT's last eight frames are CLEAR's, so the image is blank (R91). -/
theorem image_sendFrames_initFrames {s : State} (h : s.receiver.cs = true) {row : Nat} (hrow : row < 8) :
    (sendFrames (initFrames s.build) s).receiver.image row = some 0x00#8 := by
  rw [initFrames, sendFrames_append]
  exact (image_sendFrames_rowFrames (Vector.replicate 8 0x00#8) (receiver_cs_sendFrames _ h) ⟨row, hrow⟩).trans
    (congrArg some (Vector.getElem_replicate hrow))

/-- Settles O18: INIT's frames are written out by its rule, each control register is named once, and the rows are
blank. -/
theorem initSendsThirteenFramesInOrder : Obligations.InitSendsThirteenFramesInOrder := by
  refine ⟨exec_init, fun s => framesEvents_length (commandFrames .init s), fun s t hlines hcs h => ?_⟩
  have hs : s.receiver.cs = true := hlines.1.trans hcs
  have hread := read_sendFrames (recognised_initFrames s.build) hs
  obtain rfl : sendFrames (initFrames s.build) s = t := Host.Outcome.next.inj h
  exact ⟨hread 0x09#8, hread 0x0B#8, hread 0x0A#8, hread 0x0C#8, hread 0x0F#8,
    fun row hrow => image_sendFrames_initFrames hs hrow, displayEnabled_sendFrames_initFrames hs⟩

/-! ### CLEAR and RENDER -/

/-- CLEAR names registers 1 to 8, each with data 0 (R93). -/
theorem lookup_blankFrames (x : Byte) :
    blankFrames.reverse.lookup x = if 1 ≤ x.toNat ∧ x.toNat ≤ 8 then some 0x00#8 else none := by
  revert x; decide

/-- The registers after CLEAR with CS high (R56, R93). -/
theorem read_exec_clear {s t : State} (hlines : LinesAgree s) (hcs : s.cs = true) (h : exec .clear s = .next t)
    (x : Byte) : t.receiver.devreg.read x =
      if 1 ≤ x.toNat ∧ x.toNat ≤ 8 then some 0x00#8 else s.receiver.devreg.read x := by
  have hblank : ∀ f ∈ blankFrames, recognised f.1 = true := recognised_rowFrames (Vector.replicate 8 0x00#8)
  obtain rfl : sendFrames blankFrames s = t := Host.Outcome.next.inj h
  rw [read_sendFrames hblank (hlines.1.trans hcs), lookup_blankFrames]
  split <;> rfl

/-- Settles O19: CLEAR is RENDER of zero rows, and what it writes does not depend on the registers. -/
theorem clearBlanksTheRows : Obligations.ClearBlanksTheRows := by
  refine ⟨exec_render (Vector.replicate 8 0x00#8), fun s => framesEvents_length (commandFrames .clear s),
    fun _ _ x hlines hcs h => read_exec_clear hlines hcs h x, fun s t u x hlines hcs ht hu => ?_⟩
  have htcs : t.cs = true := by cases (exec_render (Vector.replicate 8 0x00#8) s).symm.trans ht; rfl
  rw [read_exec_clear (linesAgree_exec hlines ht) htcs hu, read_exec_clear hlines hcs ht]
  split <;> rfl

/-- A receiver whose image is the rows shows them (R58). -/
theorem shows_of_image {r : Receiver} {rows : Vector Byte 8} (h : ∀ row : Fin 8, r.image row.val = some rows[row]) :
    r.shows rows = true := by
  refine List.all_eq_true.2 fun row hrow => ?_
  have hlt : row < 8 := List.mem_range.1 hrow
  rw [h ⟨row, hlt⟩, beq_iff_eq]
  exact (Vector.getElem?_eq_getElem hlt).symm

/-- RENDER's word without its four extension words is no command (R62, R79). -/
theorem decode_render_truncated : ∀ {ext : List CommandWord}, ext.length < 4 →
    decode (0x7000#16 :: ext) = .error .truncated
  | [], _ | [_], _ | [_, _], _ | [_, _, _], _ => rfl
  | _ :: _ :: _ :: _ :: ext, h => absurd h (by simp)

/-- Settles O20: RENDER's frames are its rows, and the image after them is the rows. -/
theorem renderSendsItsRowsInOrder : Obligations.RenderSendsItsRowsInOrder := by
  refine ⟨fun rows s => ?_, fun rows s => framesEvents_length (commandFrames (.render rows) s),
    fun rows s t hlines hcs h => ?_, decode_render, fun _ => decode_render_truncated⟩
  · rw [exec_render, rowFrames_toList]
  · have himage := image_sendFrames_rowFrames rows (hlines.1.trans hcs)
    obtain rfl : sendFrames (rowFrames rows.toList) s = t := Host.Outcome.next.inj h
    exact ⟨himage, shows_of_image himage⟩

/-- Settles O22: a glyph's frames are the frames of its eight bytes as rows. -/
theorem clearAndShowAreRenders : Obligations.ClearAndShowAreRenders :=
  ⟨exec_clear_eq_render, fun v _ h => (exec_showGlyph h v).trans (by rw [← rowFrames_glyphBytes]; rfl)⟩

/-! ### Every command -/

theorem requestWait_trace (i : Instr) (s : State) :
    (requestWait i s).trace = s.trace ++ if i = .tick then [.wait Config.tickMs] else [] := by
  unfold requestWait
  split <;> simp

theorem requestWait_receiver (i : Instr) (s : State) : (requestWait i s).receiver = s.receiver := by
  unfold requestWait
  split
  · exact waitMs_receiver _ s
  · rfl

/-- Settles O23: the command sends the frames of its rule, and the receiver gets an entry for each. -/
theorem commandsSendWellFormedFrames : Obligations.CommandsSendWellFormedFrames := by
  intro i s hi hwf hlines hcs
  have hs : s.receiver.cs = true := hlines.1.trans hcs
  have hexec := exec_eq_sendFrames hi hwf
  obtain ⟨hrcs, hframes, -⟩ := after_framesEvents (commandFrames i s) s.receiver hs
  rw [← receiver_sendFrames, ← requestWait_receiver i] at hrcs hframes
  refine ⟨_, hexec, ?_, hframes, ?_, fun f hf hne => recognised_of_mem_commandFrames hne s f hf⟩
  · rw [requestWait_trace, sendFrames_trace]
  · exact (linesAgree_exec hlines hexec).1.symm.trans hrcs

end Sys2Proof.Machine
end

section
/-!
PROOFS. The Display Sequencer commands (R100 to R104): the clamped index, SHOW, the two steps of TICK, and TICKs one after
another.
-/

namespace Sys2Proof.Machine

/-! ### The clamped index -/

theorem clampIndex_of_ge {b : Build} {v : Byte} (h : b.glyphCount ≤ v.toNat) : clampIndex b v = 0 :=
  if_neg (Nat.not_lt_of_le h)

theorem clampIndex_zero (b : Build) : clampIndex b 0#8 = 0 := by
  unfold clampIndex
  split <;> rfl

/-- The corners of the rule in a build in range (R100). -/
theorem clampIndex_corners {b : Build} (h : b.wf) :
    clampIndex b (BitVec.ofNat 8 (b.glyphCount - 1)) = b.glyphCount - 1 ∧
    clampIndex b (BitVec.ofNat 8 b.glyphCount) = 0 ∧ clampIndex b 255#8 = 0 ∧ clampIndex b 0#8 = 0 := by
  obtain ⟨hpos, hle, -⟩ := h
  have hnat : ∀ n ≤ 255, (BitVec.ofNat 8 n).toNat = n := fun n hn => Nat.mod_eq_of_lt (Nat.lt_succ_of_le hn)
  have hlast := hnat (b.glyphCount - 1) (by omega)
  refine ⟨?_, clampIndex_of_ge (hnat _ hle).ge, clampIndex_of_ge hle, clampIndex_zero b⟩
  rw [clampIndex_of_lt (by omega), hlast]

/-- SHOW reads its operand through the clamp only (R100, R102). -/
theorem exec_showGlyph_of_ge {s : State} {v : Byte} (h : s.build.glyphCount ≤ v.toNat) :
    exec (.showGlyph v) s = exec (.showGlyph 0#8) s := by
  simp only [exec, execShowGlyph, clampIndex_of_ge h, clampIndex_zero]

/-- The bus does not reach the cursor (R80 to R82). -/
theorem runBus_with_cursor (ops : List BusOp) (s : State) (c : Byte) :
    runBus ops { s with cursor := c } = { runBus ops s with cursor := c } := by
  induction ops generalizing s with
  | nil => rfl
  | cons op ops ih =>
    have hop : BusOp.run { s with cursor := c } op = { BusOp.run s op with cursor := c } := by cases op <;> rfl
    exact (congrArg (runBus ops) hop).trans (ih (BusOp.run s op))

theorem requestWait_with_cursor (i : Instr) (s : State) (c : Byte) :
    requestWait i { s with cursor := c } = { requestWait i s with cursor := c } := by
  unfold requestWait
  split <;> rfl

/-- What TICK sends is read from the build and the clamped cursor (R100, R101). -/
theorem commandOps_tick_with_cursor {s : State} {c : Byte} (h : clampIndex s.build c = clampIndex s.build s.cursor) :
    commandOps .tick { s with cursor := c } = commandOps .tick s := by
  simp only [commandOps, h]
  exact congrArg (Except.map _) (readRows_of_same_build rfl _ (List.range 8))

/-- TICK from another cursor that clamps to the same index does the same, and keeps that cursor (R100, R101). -/
theorem exec_tick_with_cursor {s t : State} {c : Byte} (hc : clampIndex s.build c = clampIndex s.build s.cursor)
    (h : exec .tick s = .next t) : exec .tick { s with cursor := c } = .next { t with cursor := c } := by
  have hops := commandOps_tick_with_cursor hc
  obtain ⟨ops, hok, rfl⟩ | ⟨_, cause, herror, rfl⟩ := exec_cases h
  · rw [exec_of_ok (hops.trans hok), runBus_with_cursor, requestWait_with_cursor]
  · exact (exec_of_error (hops.trans herror)).2

/-- Settles O25: SHOW and TICK use their index through the clamp alone, and 0 is what an index out of range clamps to. -/
theorem indexesAreClamped : Obligations.IndexesAreClamped :=
  ⟨fun _ _ => rfl, fun _ => clampIndex_corners, fun _ _ => exec_showGlyph_of_ge, fun _ _ hge =>
    exec_tick_with_cursor ((clampIndex_zero _).trans (clampIndex_of_ge hge).symm)⟩

/-! ### Rendering a glyph -/

/-- The state after the frames of a glyph: row 7's frame is the last (R101, R102). -/
theorem sendFrames_glyphFrames (b : Build) (i : Nat) (s : State) : sendFrames (glyphFrames b i) s = { s with
    cs := true, clk := true, din := (glyphByte b i 7).getLsbD 0, trace := s.trace ++ framesEvents (glyphFrames b i) } :=
  sendFrames_eq (glyphFrames b i).dropLast 0x08#8 (glyphByte b i 7) s

theorem framesEvents_glyphFrames_length (b : Build) (i : Nat) : (framesEvents (glyphFrames b i)).length = 400 :=
  framesEvents_length (glyphFrames b i)

/-- Settles O28: SHOW is the frames of the glyph it clamps to. -/
theorem showRendersTheClampedGlyph : Obligations.ShowRendersTheClampedGlyph :=
  ⟨fun v s h => (exec_showGlyph h v).trans (congrArg _ (sendFrames_glyphFrames _ _ s)),
    framesEvents_glyphFrames_length, fun _ _ => exec_showGlyph_of_ge,
    fun v => encodedCommandDecodesBack (.showGlyph v)⟩

/-! ### The two steps of TICK -/

/-- TICK's issue step in a build in range (R101). -/
theorem exec_tick_eq {s : State} (h : s.build.wf) : exec .tick s = .next { s with
    cs := true, clk := true, din := (glyphByte s.build (clampIndex s.build s.cursor) 7).getLsbD 0, phase := .waiting,
    trace := s.trace ++ framesEvents (glyphFrames s.build (clampIndex s.build s.cursor)) ++ [.wait 1000] } := by
  rw [exec_tick h, sendFrames_glyphFrames]
  rfl

/-- Settles O26: TICK is the frames of the glyph its cursor clamps to, and the wait request. -/
theorem tickRendersThenWaits : Obligations.TickRendersThenWaits := by
  refine fun s h => ⟨exec_tick_eq h, ?_⟩
  rw [List.length_append, framesEvents_glyphFrames_length]
  rfl

/-- The turn in which the service returns is TICK's resume step (R101, R118). -/
theorem step_of_return {s : State} {later : List WaitReply} (hr : s.refused = none) (hp : s.phase = .waiting)
    (h : s.waitReplies = .after 0 :: later ∨ (s.waitReplies = [] ∧ later = [])) :
    step s = .next (resumeTick { s with waitReplies := later }) := by
  rw [step_of_waiting hr hp, serviceTurn_returns h]

/-- The corners of R101: the last glyph is followed by the first, a build of one glyph stays at it, and a perturbed cursor
is followed by what follows glyph 0. -/
theorem nextCursor_corners {b : Build} (h : b.wf) (c : Byte) :
    (c.toNat = b.glyphCount - 1 → nextCursor b c = 0#8) ∧ (b.glyphCount = 1 → nextCursor b c = 0#8) ∧
    (b.glyphCount ≤ c.toNat → (nextCursor b c).toNat = 1 % b.glyphCount) := by
  have hpos : 1 ≤ b.glyphCount := h.1
  have hnext := nextCursor_toNat h c
  refine ⟨fun hlast => BitVec.eq_of_toNat_eq ?_, fun hone => BitVec.eq_of_toNat_eq ?_, fun hge => ?_⟩
  · rw [hnext, clampIndex_of_lt (by omega), hlast, Nat.sub_add_cancel hpos, Nat.mod_self]
    rfl
  · rw [hnext, hone, Nat.mod_one]
    rfl
  · rw [hnext, clampIndex_of_ge hge]

/-- Settles O27: the step is the resume step, and the cursor it writes is the next one. -/
theorem tickResumesWithTheNextCursor : Obligations.TickResumesWithTheNextCursor := fun s _ hwf hr hp h =>
  ⟨_, step_of_return hr hp h, rfl, nextCursor_toNat hwf s.cursor, nextCursor_corners hwf s.cursor⟩

/-! ### TICKs one after another -/

theorem fetchCommand_tick {s : State} (h : wordAt s.cmd s.cpos = some 0x8000#16) :
    fetchCommand s = .command .tick 1 := by
  refine fetchCommand_of_decode (rest := wordsFrom s.cmd (s.cpos + 1) 4) ?_
  rw [longestCommand, wordsFrom_succ, h]
  exact encodedCommandDecodesBack .tick _

/-- A TICK in the stream whose wait returns at once takes two steps: issue and resume (R101; log 8). -/
theorem runSteps_tick {s : State} (hwf : s.build.wf) (hs : Ready s) (hreplies : s.waitReplies = [])
    (hword : wordAt s.cmd s.cpos = some 0x8000#16) : runSteps 2 s = .next { s with
      cs := true, clk := true, din := (glyphByte s.build (clampIndex s.build s.cursor) 7).getLsbD 0,
      cursor := nextCursor s.build s.cursor, phase := .ready, cpos := s.cpos + 1, waitReplies := [],
      trace := s.trace ++ framesEvents (glyphFrames s.build (clampIndex s.build s.cursor)) ++ [.wait 1000] } := by
  have hissue := step_of_command hs (fetchCommand_tick hword)
  rw [exec_tick_eq hwf] at hissue
  simp only [runSteps, hissue, afterExec]
  rw [step_of_return (later := []) (by simpa using hs.1) (by simp) (.inr ⟨by simpa using hreplies, rfl⟩)]
  rfl

/-- `t` is `s` after `k` TICKs that render glyphs `c`, `c + 1`, ..., each mod `N`, and return (R104.4). -/
structure TicksDone (k : Nat) (s t : State) : Prop where
  cursor : t.cursor.toNat = (s.cursor.toNat + k) % s.build.glyphCount
  cpos : t.cpos = s.cpos + k
  ready : Ready t
  trace : t.trace = s.trace ++ (List.range k).flatMap fun j =>
    framesEvents (glyphFrames s.build ((s.cursor.toNat + j) % s.build.glyphCount)) ++ [.wait 1000]
  build : t.build = s.build
  cmd : t.cmd = s.cmd
  waitReplies : t.waitReplies = []

theorem ticksDone_zero {s : State} (hcur : s.cursor.toNat < s.build.glyphCount) (hs : Ready s)
    (hreplies : s.waitReplies = []) : TicksDone 0 s s :=
  ⟨(Nat.mod_eq_of_lt hcur).symm, rfl, hs, (List.append_nil _).symm, rfl, rfl, hreplies⟩

/-- One TICK more. -/
theorem TicksDone.succ {k : Nat} {s t : State} (h : TicksDone k s t) (hwf : s.build.wf)
    (hword : wordAt s.cmd (s.cpos + k) = some 0x8000#16) : ∃ u, runSteps 2 t = .next u ∧ TicksDone (k + 1) s u := by
  obtain ⟨hcursor, hcpos, hready, htrace, hbuild, hcmd, hreplies⟩ := h
  have hclamp : clampIndex s.build t.cursor = (s.cursor.toNat + k) % s.build.glyphCount := by
    rw [clampIndex_of_lt (hcursor ▸ Nat.mod_lt _ hwf.1), hcursor]
  refine ⟨_, runSteps_tick (hbuild ▸ hwf) hready hreplies (by rw [hcmd, hcpos, hword]), ?_⟩
  constructor
  case cursor =>
    dsimp only
    rw [hbuild, nextCursor_toNat hwf, hclamp, Nat.mod_add_mod, Nat.add_assoc]
  case cpos => exact congrArg (· + 1) hcpos
  case ready => exact ⟨hready.1, rfl⟩
  case trace => simp [htrace, hbuild, hclamp, List.range_succ]
  case build => exact hbuild
  case cmd => exact hcmd
  case waitReplies => rfl

theorem runSteps_ticks {s : State} (hwf : s.build.wf) (hcur : s.cursor.toNat < s.build.glyphCount) (hs : Ready s)
    (hreplies : s.waitReplies = []) {k : Nat} (hwords : ∀ j < k, wordAt s.cmd (s.cpos + j) = some 0x8000#16) :
    ∃ t, runSteps (2 * k) s = .next t ∧ TicksDone k s t := by
  induction k with
  | zero => exact ⟨s, rfl, ticksDone_zero hcur hs hreplies⟩
  | succ k ih =>
    obtain ⟨t, hrun, ht⟩ := ih fun j hj => hwords j (Nat.lt_succ_of_lt hj)
    obtain ⟨u, hrun', hu⟩ := ht.succ hwf (hwords k k.lt_succ_self)
    exact ⟨u, (runSteps_add hrun).trans hrun', hu⟩

/-- Settles O29: by induction on the number of TICKs, each of which is two steps. -/
theorem ticksCycleThroughTheGlyphs : Obligations.TicksCycleThroughTheGlyphs := by
  rintro k s ⟨hwf, hcur, -⟩ hs hreplies hwords
  obtain ⟨t, hrun, ht⟩ := runSteps_ticks hwf hcur hs hreplies hwords
  exact ⟨t, hrun, ht.cursor, ht.cpos, ht.ready, ht.trace⟩

end Sys2Proof.Machine
end

section
/-!
PROOFS. Refusals and the waiting engine (R110 to R118, R124): a refusing step changes the refusal mark alone, and a turn
of the timing service drives nothing.
-/

namespace Sys2Proof.Machine

/-! ### A refusal -/

/-- A turn of the service takes no refusal (R118). -/
theorem serviceTurn_refused (s : State) : (serviceTurn s).refused = s.refused := by
  obtain ⟨_, e⟩ | ⟨_, e⟩ := serviceTurn_cases s <;> simp [e]

/-- A refused command leaves `CPOS` at its first word (R111). -/
theorem finishCommand_of_refused {s : State} {c : RefusalCause} (h : s.refused = some c) (len : Nat) :
    finishCommand len s = s := by
  simp [finishCommand, h]

/-- Settles O37: the service takes no refusal, the fetch's refusal sets the mark alone, and so does a refused command,
after which `CPOS` does not advance. -/
theorem refusalStopsTheEngine : Obligations.RefusalStopsTheEngine := by
  refine ⟨fun s t c h hc => ?_, fun s c => step_of_refused⟩
  obtain ⟨hr, ⟨_, rfl⟩ | ⟨_, d, _, rfl⟩ | ⟨_, i, len, u, _, hu, rfl⟩⟩ := step_cases h
  · cases hc.symm.trans ((serviceTurn_refused s).trans hr)
  · cases hc
    rfl
  · rw [finishCommand_refused] at hc
    obtain ⟨_, e⟩ := exec_refused hu (by simp [hc, hr])
    rw [finishCommand_of_refused hc]
    rwa [hc] at e

/-! ### A waiting engine -/

/-- Returning from a wait drives no line, and neither does letting a turn pass (R118, R124). -/
theorem serviceTurn_lines (s : State) :
    (serviceTurn s).cs = s.cs ∧ (serviceTurn s).clk = s.clk ∧ (serviceTurn s).din = s.din := by
  obtain ⟨_, e⟩ | ⟨_, e⟩ := serviceTurn_cases s <;> simp [e]

/-- A turn after which the engine still waits changes the schedule alone: the resume step would have made it ready. -/
theorem serviceTurn_of_still_waiting {s : State} (h : (serviceTurn s).phase = .waiting) :
    serviceTurn s = { s with waitReplies := (serviceTurn s).waitReplies } := by
  obtain ⟨_, e⟩ | ⟨_, e⟩ := serviceTurn_cases s <;> rw [e] at h ⊢
  cases h

/-- A service that never returns is a hang (R118). -/
theorem serviceTurn_of_never {s : State} {later : List WaitReply} (h : s.waitReplies = .never :: later) :
    serviceTurn s = s := by
  simp only [serviceTurn, h]

/-- Settles O36: the step is a turn of the service. -/
theorem waitingEngineDrivesNothing : Obligations.WaitingEngineDrivesNothing := by
  intro s hr hp
  obtain ⟨hcs, hclk, hdin⟩ := serviceTurn_lines s
  exact ⟨_, step_of_waiting hr hp, hcs, hclk, hdin, serviceTurn_trace s, (serviceTurn_refused s).trans hr,
    serviceTurn_of_still_waiting, fun _ => serviceTurn_of_never⟩

end Sys2Proof.Machine
end

section
/-!
PROOFS. The events of each command, counted (R140).
-/

namespace Sys2Proof.Machine

theorem waitCount_append (es fs : List Event) : waitCount (es ++ fs) = waitCount es + waitCount fs :=
  List.countP_append

/-- Frames are pin writes alone (R73). -/
theorem waitCount_framesEvents (fs : List (Byte × Byte)) : waitCount (framesEvents fs) = 0 := by
  induction fs with
  | nil => rfl
  | cons f fs ih =>
    have hframe : waitCount (frameEvents f.1 f.2) = 0 := rfl
    rw [framesEvents_cons, waitCount_append, hframe, ih]

/-- The table counts 50 `Pin` events for each frame of a controller or sequencer command, and a `Wait` for TICK alone
(R73, R140). -/
theorem eventCounts_of_frames {i : Instr} (hi : isRawLink i = false) (s : State) :
    eventCounts i = (50 * (commandFrames i s).length, if i = .tick then 1 else 0) := by
  cases i with
  | select | deselect | txbyte => cases hi
  | wrreg | init | clear | render | tick | showGlyph => rfl

/-- Settles O24: a raw command's events are written out, and any other command sends its frames, 50 events each, with a
wait request after them for TICK. -/
theorem eventCountsAreThoseOfTheTable : Obligations.EventCountsAreThoseOfTheTable := by
  intro i s h
  cases hi : isRawLink i with
  | false =>
    refine ⟨_, framesEvents (commandFrames i s) ++ (if i = .tick then [.wait Config.tickMs] else []),
      exec_eq_sendFrames hi h, ?_, ?_, ?_⟩
    · rw [requestWait_trace, sendFrames_trace, List.append_assoc]
    · rw [eventCounts_of_frames hi s, waitCount_append, waitCount_framesEvents, Nat.zero_add]
      split <;> rfl
    · rw [eventCounts_of_frames hi s, List.length_append, framesEvents_length]
      split <;> rfl
  | true =>
    cases i with
    | select | deselect => exact ⟨_, _, rfl, rfl, rfl, rfl⟩
    | txbyte v => exact ⟨_, txEvents v, exec_txbyte v s, rfl, rfl, rfl⟩
    | wrreg | init | clear | render | tick | showGlyph => cases hi

end Sys2Proof.Machine
end

section
/-!
PROOFS. How a run stands and what a step answers then (R79, R142), and a step that a reset cuts (R130).
-/

namespace Sys2Proof.Machine

/-! ### The stand of a run -/

theorem status_of_refused {s : State} {c : RefusalCause} (h : s.refused = some c) : s.status = .refusedStop := by
  simp [State.status, State.isRefused, h]

theorem status_of_waiting {s : State} (hr : s.refused = none) (hp : s.phase = .waiting) : s.status = .waiting := by
  simp [State.status, State.isRefused, hr, hp]

theorem status_of_wordAt_some {s : State} {cw : CommandWord} (hs : Ready s) (hw : wordAt s.cmd s.cpos = some cw) :
    s.status = .running := by
  simp [State.status, State.isRefused, hs.1, hs.2, hw]

/-- A ready engine without a word at `CPOS` has no step (R79). -/
theorem step_of_wordAt_none {s : State} (hs : Ready s) (hw : wordAt s.cmd s.cpos = none) :
    step s = .fault (if streamLength s.cmd = some s.cpos then .endOfRun else .cposOutsideStream) :=
  step_of_stop hs (by simp only [fetchCommand, hw])

/-- A ready engine with a word at `CPOS` runs a command or refuses the word (R79). -/
theorem step_of_wordAt_some {s : State} {cw : CommandWord} (hs : Ready s) (hw : wordAt s.cmd s.cpos = some cw) :
    ∃ t, step s = .next t := by
  cases hf : fetchCommand s with
  | stop f => cases (fetchCommand_stop hf).1.symm.trans hw
  | refusal c => exact ⟨_, step_of_refusal hs hf⟩
  | command i len =>
    obtain ⟨t, ht⟩ := exec_next i s
    exact ⟨finishCommand len t, by rw [step_of_command hs hf, ht]; rfl⟩

/-- The outcome of a step where the run stands so (R142). -/
def RunStatus.Answers : RunStatus → Host.Outcome State Fault Refusal → Prop
  | .running, o => ∃ t, o = .next t
  | .waiting, o => ∃ t, o = .next t
  | .normalEnd, o => o = .fault .endOfRun
  | .outsideStream, o => o = .fault .cposOutsideStream
  | .refusedStop, o => ∃ r, o = .refused r

theorem status_answers_step (s : State) : s.status.Answers (step s) := by
  cases hr : s.refused with
  | some c => rw [status_of_refused hr]; exact ⟨_, step_of_refused hr⟩
  | none =>
    cases hp : s.phase with
    | waiting => rw [status_of_waiting hr hp]; exact ⟨_, step_of_waiting hr hp⟩
    | ready =>
      have hs : Ready s := ⟨hr, hp⟩
      cases hw : wordAt s.cmd s.cpos with
      | some cw => rw [status_of_wordAt_some hs hw]; exact step_of_wordAt_some hs hw
      | none =>
        rw [status_of_wordAt_none hs hw, step_of_wordAt_none hs hw]
        split <;> rfl

/-- Settles O38: each status names the outcome of the step, and no outcome is that of two of the four cases. -/
theorem runStatusTellsTheStep : Obligations.RunStatusTellsTheStep := by
  intro s
  have h := status_answers_step s
  cases hs : s.status <;> rw [hs] at h
  case running | waiting => obtain ⟨t, ht⟩ := h; simp [ht]
  case normalEnd | outsideStream =>
    have hstep : step s = .fault _ := h
    simp [hstep]
  case refusedStop => obtain ⟨r, hr⟩ := h; simp [hr]

/-! ### A cut step -/

/-- Every step only extends the trace (R32, R48). -/
theorem step_trace {s t : State} (h : step s = .next t) : ∃ es, t.trace = s.trace ++ es := by
  obtain ⟨_, ⟨_, rfl⟩ | ⟨_, c, _, rfl⟩ | ⟨_, i, len, u, _, hu, rfl⟩⟩ := step_cases h
  · exact ⟨[], (serviceTurn_trace s).trans (List.append_nil _).symm⟩
  · exact ⟨[], (List.append_nil _).symm⟩
  · obtain ⟨_, _, _, _, _, es, rfl⟩ := exec_shape hu
    exact ⟨es, finishCommand_trace _ _⟩

theorem stepEvents_of_trace {s t : State} {es : List Event} (h : step s = .next t) (ht : t.trace = s.trace ++ es) :
    stepEvents s = es := by
  simp only [stepEvents, h, ht, List.drop_left]

/-- Settles O40: the events before the cut and those after it are the step's events. -/
theorem resetCutsTheCommandAnywhere : Obligations.ResetCutsTheCommandAnywhere := by
  intro s t k h
  obtain ⟨es, ht⟩ := step_trace h
  have hcut : abandonedTrace s k = s.trace ++ es.take k := by rw [abandonedTrace, stepEvents_of_trace h ht]
  refine ⟨es.take k, es.drop k, hcut, ?_, ?_⟩
  · rw [hcut, ht, List.append_assoc, List.take_append_drop]
  · rw [List.length_take, ht, List.length_append, Nat.add_sub_cancel_left]

end Sys2Proof.Machine
end

section
/-!
PROOFS. Runs of commands: where every wait returns, each command comes to its end and leaves a state in which the next one
starts (R47, R79, R101, R118).
-/

namespace Sys2Proof.Machine

/-! ### A wait that returns -/

theorem runSteps_succ {s t : State} (h : step s = .next t) (n : Nat) : runSteps (n + 1) s = runSteps n t := by
  simp only [runSteps, h]

/-- What every step keeps, every run keeps. -/
theorem runSteps_keeps {P : State → Prop} (hstep : ∀ u v, P u → step u = .next v → P v) {n : Nat} {s t : State}
    (hs : P s) (h : runSteps n s = .next t) : P t := by
  induction n generalizing s with
  | zero => cases h; exact hs
  | succ n ih =>
    cases hu : step s with
    | next u => exact ih (hstep s u hs hu) ((runSteps_succ hu n).symm.trans h)
    | fault | refused => simp [runSteps, hu] at h

/-- A wait that does not hang comes to TICK's resume step, after some turns (R118; log 8). -/
theorem runSteps_until_return {s : State} (hr : s.refused = none) (hp : s.phase = .waiting)
    (hnever : .never ∉ s.waitReplies) :
    ∃ n later, .never ∉ later ∧ runSteps n s = .next (resumeTick { s with waitReplies := later }) := by
  cases hw : s.waitReplies with
  | nil => exact ⟨1, [], nofun, runSteps_succ (step_of_return hr hp (.inr ⟨hw, rfl⟩)) 0⟩
  | cons reply later =>
    have hlater : .never ∉ later := fun hm => hnever (hw ▸ .tail reply hm)
    cases reply with
    | never => exact absurd (hw ▸ .head later) hnever
    | after turns =>
      induction turns generalizing s with
      | zero => exact ⟨1, later, hlater, runSteps_succ (step_of_return hr hp (.inl hw)) 0⟩
      | succ turns ih =>
        have hturn : step s = .next { s with waitReplies := .after turns :: later } := by
          rw [step_of_waiting hr hp, serviceTurn, hw]
        obtain ⟨n, rest, hrest, hrun⟩ := ih (s := { s with waitReplies := .after turns :: later }) hr hp
          (by simpa using hlater) rfl
        exact ⟨n + 1, rest, hrest, (runSteps_succ hturn n).trans hrun⟩

/-! ### A command to its end -/

/-- What follows `exec` until the next command: the return of TICK's wait, or the end of the command cycle (R47, R79). -/
def completeCommand (i : Instr) (t : State) : State :=
  match t.phase with
  | .waiting => resumeTick t
  | .ready => finishCommand (encode i).length t

theorem completeCommand_of_waiting {t : State} (h : t.phase = .waiting) (i : Instr) :
    completeCommand i t = resumeTick t := by
  simp only [completeCommand, h]

theorem completeCommand_of_ready {t : State} (h : t.phase = .ready) (i : Instr) :
    completeCommand i t = finishCommand (encode i).length t := by
  simp only [completeCommand, h]

/-- Commands executed one after another are each completed (R47). -/
theorem runCommands_completeCommand {i : Instr} {s t : State} (h : exec i s = .next t) (is : List Instr) :
    runCommands (i :: is) s = runCommands is (completeCommand i t) := by
  cases hp : t.phase with
  | waiting => rw [completeCommand_of_waiting hp]; simp only [runCommands, h, hp]
  | ready => rw [completeCommand_of_ready hp, runCommands_cons h hp]

/-- A TICK that waits has not moved `CPOS` (R101). -/
theorem finishCommand_of_waiting {s : State} (h : s.phase = .waiting) (len : Nat) : finishCommand len s = s := by
  simp [finishCommand, h]

/-- The machine completes the command it fetches, whatever the schedule holds, unless a wait hangs (R79, R118). -/
theorem runSteps_command {s t : State} {i : Instr} (hs : Ready s)
    (hf : fetchCommand s = .command i (encode i).length) (h : exec i s = .next t) (hr : t.refused = none)
    (hnever : .never ∉ s.waitReplies) :
    ∃ n later, .never ∉ later ∧ runSteps n s = .next { completeCommand i t with waitReplies := later } := by
  have hstep : step s = .next (finishCommand (encode i).length t) := by rw [step_of_command hs hf, h]; rfl
  have hreplies : t.waitReplies = s.waitReplies := by obtain ⟨_, _, _, _, _, _, rfl⟩ := exec_shape h; rfl
  cases hp : t.phase with
  | ready =>
    refine ⟨1, s.waitReplies, hnever, (runSteps_succ hstep 0).trans ?_⟩
    rw [completeCommand_of_ready hp, ← hreplies, ← finishCommand_waitReplies t (encode i).length]
    rfl
  | waiting =>
    rw [finishCommand_of_waiting hp] at hstep
    obtain ⟨n, later, hlater, hrun⟩ := runSteps_until_return hr hp (hreplies ▸ hnever)
    exact ⟨n + 1, later, hlater, by rw [runSteps_succ hstep, hrun, completeCommand_of_waiting hp]; rfl⟩

end Sys2Proof.Machine
end

section
/-!
PROOFS. The run from reset (R131): INIT, and then TICK for ever under any schedule in which no wait hangs.
-/

namespace Sys2Proof.Machine

/-- The state with a service that returns at once (log 8): a run under another schedule is compared with the run from here. -/
abbrev State.prompt (s : State) : State := { s with waitReplies := [] }

/-- A TICK whose wait does not hang ends as one whose wait returns at once (R101, R118). -/
theorem runSteps_tick_of_prompt {s t : State} (hwf : s.build.wf) (hs : Ready s) (hnever : .never ∉ s.waitReplies)
    (hword : wordAt s.cmd s.cpos = some 0x8000#16) (h : runSteps 2 s.prompt = .next t) :
    ∃ n u, runSteps n s = .next u ∧ .never ∉ u.waitReplies ∧ u.prompt = t := by
  cases (runSteps_tick (s := s.prompt) hwf hs rfl hword).symm.trans h
  obtain ⟨n, later, hlater, hrun⟩ := runSteps_command hs (fetchCommand_tick hword) (exec_tick_eq hwf) hs.1 hnever
  exact ⟨n, _, hrun, hlater, rfl⟩

/-- `k` TICKs under any schedule without a hang (R104.4, R118). -/
theorem runSteps_ticks_of_no_hang {s : State} (hwf : s.build.wf) (hcur : s.cursor.toNat < s.build.glyphCount)
    (hs : Ready s) (hnever : .never ∉ s.waitReplies) {k : Nat}
    (hwords : ∀ j < k, wordAt s.cmd (s.cpos + j) = some 0x8000#16) :
    ∃ n t, runSteps n s = .next t ∧ .never ∉ t.waitReplies ∧ TicksDone k s.prompt t.prompt := by
  induction k with
  | zero => exact ⟨0, s, rfl, hnever, ticksDone_zero hcur hs rfl⟩
  | succ k ih =>
    obtain ⟨m, t, hrun, hnever', ht⟩ := ih fun j hj => hwords j (Nat.lt_succ_of_lt hj)
    have hword := hwords k k.lt_succ_self
    obtain ⟨u, hrun', hu⟩ := ht.succ hwf hword
    have hbuild : t.build = s.build := ht.build
    have hcmd : t.cmd = s.cmd := ht.cmd
    have hcpos : t.cpos = s.cpos + k := ht.cpos
    obtain ⟨n, v, hrunv, hneverv, rfl⟩ := runSteps_tick_of_prompt (s := t) (hbuild ▸ hwf) ht.ready
      hnever' (by rw [hcmd, hcpos, hword]) hrun'
    exact ⟨m + n, v, (runSteps_add hrun).trans hrunv, hneverv, hu⟩

/-- INIT's frames as R91 lists them. -/
theorem commandFrames_init (s : State) : commandFrames .init s = initFrames s.build := rfl

/-- The state in which INIT leaves the engine after reset (R91, R131). -/
def State.booted (b : Build) (replies : List WaitReply) : State :=
  { State.resetWith b Config.bootStream replies with
    cs := true, clk := true, din := false, cpos := 1, trace := framesEvents (initFrames b) }

/-- The first step from reset is INIT (R131). -/
theorem step_boot (b : Build) (replies : List WaitReply) :
    step (State.resetWith b Config.bootStream replies) = .next (State.booted b replies) := by
  rw [step_of_command (i := .init) (len := 1) ⟨rfl, rfl⟩ rfl, exec_init]
  rfl

theorem wordAt_booted (b : Build) (replies : List WaitReply) (k : Nat) :
    wordAt (State.booted b replies).cmd ((State.booted b replies).cpos + k) = some 0x8000#16 :=
  Nat.add_comm k 1 ▸ wordAt_bootStream_succ k

/-- A TICK at cursor 0 issues the frames of glyph 0 and waits (R101). -/
theorem step_tick_of_cursor_zero {s : State} (h : s.build.wf) (hs : Ready s) (hcur : s.cursor = 0#8)
    (hword : wordAt s.cmd s.cpos = some 0x8000#16) :
    ∃ t, step s = .next t ∧ t.phase = .waiting ∧
      t.trace = s.trace ++ framesEvents (glyphFrames s.build 0) ++ [.wait 1000] := by
  rw [step_of_command hs (fetchCommand_tick hword), exec_tick_eq h, hcur, clampIndex_zero]
  exact ⟨_, rfl, finishCommand_phase _ _, finishCommand_trace _ _⟩

/-- Settles O41: INIT's step leads to a ready state whose stream holds TICKs alone. -/
theorem bootStreamIsInitThenTicks : Obligations.BootStreamIsInitThenTicks := by
  refine ⟨⟨rfl, wordAt_bootStream_succ, rfl⟩, ?_, fun b replies k hwf hnever => ?_⟩
  · obtain ⟨u, hu, hphase, htrace⟩ := step_tick_of_cursor_zero (s := State.booted Config.build [])
      (build_ofMode_wf Config.mode) ⟨rfl, rfl⟩ rfl (wordAt_booted _ _ 0)
    exact ⟨_, u, step_boot Config.build [], rfl, rfl, hu, hphase, htrace⟩
  · obtain ⟨n, t, hrun, -, hcursor, hcpos, hready, htrace, -⟩ := runSteps_ticks_of_no_hang (k := k)
      (s := State.booted b replies) hwf hwf.1 ⟨rfl, rfl⟩ hnever fun j _ => wordAt_booted b replies j
    refine ⟨n + 1, t, (runSteps_succ (step_boot b replies) n).trans hrun, hready, hcpos, ?_, ?_⟩
    · simpa [State.booted, State.resetWith] using hcursor
    · rw [commandFrames_init]
      simpa [State.booted, State.resetWith] using htrace

end Sys2Proof.Machine
end

section
/-!
PROOFS. Lists of commands that keep the frame contract (R83, R139), executed as a list and run from the stream.
-/

namespace Sys2Proof.Machine

/-! ### What a list of commands leaves -/

/-- The level of CS a command leaves in a build in range (R80 to R82, R95). -/
def csAfter (cs : Level) (i : Instr) : Level :=
  match i with
  | .select => false
  | .txbyte _ => cs
  | .deselect | .wrreg _ _ | .init | .clear | .render _ | .tick | .showGlyph _ => true

/-- Commands that keep the contract and start with CS high end with CS high: the only command that leaves it low is a raw
SELECT, and its DESELECT follows (R139). -/
theorem csAfter_of_keepsContract {is : List Instr} (h : keepsContract is = true) : is.foldl csAfter true = true := by
  fun_induction keepsContract is with
  | case1 => rfl
  | case3 => cases h
  | case4 _ ih | case7 _ ih | case8 _ ih | case10 _ ih => exact ih h
  | case5 _ _ ih | case9 _ _ ih | case11 _ _ ih => exact ih h
  | case2 _ _ _ ih | case6 _ _ _ ih => exact ih h

/-- In a build in range no command is refused (R43, R110). -/
theorem exec_cs_refused {i : Instr} {s t : State} (hwf : s.build.wf) (h : exec i s = .next t) :
    t.cs = csAfter s.cs i ∧ t.refused = s.refused := by
  cases i with
  | select | deselect => cases h; exact ⟨rfl, rfl⟩
  | txbyte v => cases (exec_txbyte v s).symm.trans h; exact ⟨rfl, rfl⟩
  | wrreg a v => cases (exec_wrreg a v s).symm.trans h; exact ⟨rfl, rfl⟩
  | init => cases (exec_init s).symm.trans h; exact ⟨rfl, rfl⟩
  | clear => cases (exec_render (Vector.replicate 8 0x00#8) s).symm.trans h; exact ⟨rfl, rfl⟩
  | render rows => cases (exec_render rows s).symm.trans h; exact ⟨rfl, rfl⟩
  | tick => cases (exec_tick_eq hwf).symm.trans h; exact ⟨rfl, rfl⟩
  | showGlyph v =>
    rw [exec_showGlyph hwf, sendFrames_glyphFrames] at h
    cases h
    exact ⟨rfl, rfl⟩

/-- `t` is a state in which the commands `is` are all completed from `s` on, where nothing is refused (R47, R79). -/
structure CommandsDone (is : List Instr) (s t : State) : Prop where
  inv : EngineInv t
  ready : Ready t
  cs : t.cs = is.foldl csAfter s.cs
  cpos : t.cpos = s.cpos + (is.flatMap encode).length
  cmd : t.cmd = s.cmd

theorem CommandsDone.cons {i : Instr} {is : List Instr} {s t u : State} (h : CommandsDone [i] s t)
    (h' : CommandsDone is t u) : CommandsDone (i :: is) s u where
  inv := h'.inv
  ready := h'.ready
  cs := by rw [h'.cs, h.cs]; rfl
  cpos := by rw [h'.cpos, h.cpos]; simp [Nat.add_assoc]
  cmd := h'.cmd.trans h.cmd

theorem engineInv_resumeTick {s : State} (h : EngineInv s) : EngineInv (resumeTick s) := by
  obtain ⟨hwf, _, hlines, _, _⟩ := h
  exact ⟨hwf, nextCursor_lt hwf s.cursor, hlines, nofun, fun _ => rfl⟩

/-- One command, with the wait of a TICK returned (R79, R101). -/
theorem commandsDone_completeCommand {i : Instr} {s t : State} (hi : EngineInv s) (hs : Ready s)
    (h : exec i s = .next t) : CommandsDone [i] s (completeCommand i t) := by
  have hinv := engineInv_exec hi hs h
  obtain ⟨hcs, hrefused⟩ := exec_cs_refused hi.1 h
  have hr : t.refused = none := hrefused.trans hs.1
  obtain ⟨hcpos, hcmd⟩ : t.cpos = s.cpos ∧ t.cmd = s.cmd := by
    obtain ⟨_, _, _, _, _, _, rfl⟩ := exec_shape h; exact ⟨rfl, rfl⟩
  cases hp : t.phase with
  | waiting =>
    obtain rfl : i = .tick := exec_phase h (by simp [hp, hs.2])
    rw [completeCommand_of_waiting hp]
    exact ⟨engineInv_resumeTick hinv, ⟨hr, rfl⟩, hcs, congrArg (· + 1) hcpos, hcmd⟩
  | ready =>
    have hend : finishCommand (encode i).length t = { t with cpos := t.cpos + (encode i).length } :=
      if_pos ⟨hp, hr⟩
    rw [completeCommand_of_ready hp, hend]
    exact ⟨hinv, ⟨hr, hp⟩, hcs, by simp [hcpos], hcmd⟩

/-! ### Executed as a list -/

theorem runCommands_done (is : List Instr) {s : State} (hi : EngineInv s) (hs : Ready s) :
    ∃ t, runCommands is s = .next t ∧ CommandsDone is s t := by
  induction is generalizing s with
  | nil => exact ⟨s, rfl, hi, hs, rfl, rfl, rfl⟩
  | cons i is ih =>
    obtain ⟨u, hu⟩ := exec_next i s
    have hone := commandsDone_completeCommand hi hs hu
    obtain ⟨t, hrun, ht⟩ := ih hone.inv hone.ready
    exact ⟨t, (runCommands_completeCommand hu is).trans hrun, hone.cons ht⟩

/-- Settles O45: a list of commands leaves CS as the contract says. -/
theorem contractKeepsChipSelectHigh : Obligations.ContractKeepsChipSelectHigh := by
  intro is s hi hs hcs hkeeps
  obtain ⟨t, hrun, ht⟩ := runCommands_done is hi hs
  exact ⟨t, hrun, ht.inv, ht.ready, by rw [ht.cs, hcs, csAfter_of_keepsContract hkeeps]⟩

/-! ### Run from the stream -/

/-- The words `ws` stand in the stream from position `k` on. -/
def WordsAt (c : CommandStream) (k : Nat) (ws : List CommandWord) : Prop :=
  ∀ j < ws.length, wordAt c (k + j) = ws[j]?

theorem WordsAt.left {c : CommandStream} {k : Nat} {ws vs : List CommandWord} (h : WordsAt c k (ws ++ vs)) :
    WordsAt c k ws := fun j hj => by
  rw [h j (by rw [List.length_append]; omega), List.getElem?_append_left hj]

theorem WordsAt.right {c : CommandStream} {k : Nat} {ws vs : List CommandWord} (h : WordsAt c k (ws ++ vs)) :
    WordsAt c (k + ws.length) vs := fun j hj => by
  rw [Nat.add_assoc, h _ (by rw [List.length_append]; omega), List.getElem?_append_right (Nat.le_add_right _ j),
    Nat.add_sub_cancel_left]

theorem wordsFrom_of_wordsAt {c : CommandStream} {k : Nat} {ws : List CommandWord} (h : WordsAt c k ws) :
    wordsFrom c k ws.length = ws := by
  induction ws generalizing k with
  | nil => rfl
  | cons w ws ih =>
    have hw : wordAt c k = some w := h 0 (Nat.succ_pos _)
    rw [List.length_cons, wordsFrom_succ, hw]
    exact congrArg (w :: ·) (ih (WordsAt.right (ws := [w]) h))

/-- The fetch finds the command whose words stand at `CPOS`, whatever follows them (R79). -/
theorem fetchCommand_of_wordsAt {s : State} {i : Instr} (h : WordsAt s.cmd s.cpos (encode i)) :
    fetchCommand s = .command i (encode i).length := by
  have htake : (wordsFrom s.cmd s.cpos longestCommand).take (encode i).length = encode i :=
    (take_wordsFrom s.cmd (encode_length i).2 s.cpos).trans (wordsFrom_of_wordsAt h)
  refine fetchCommand_of_decode (rest := (wordsFrom s.cmd s.cpos longestCommand).drop (encode i).length) ?_
  have hsplit := List.take_append_drop (encode i).length (wordsFrom s.cmd s.cpos longestCommand)
  rw [htake] at hsplit
  exact (congrArg decode hsplit).symm.trans (encodedCommandDecodesBack i _)

theorem runSteps_done (is : List Instr) {s : State} (hi : EngineInv s) (hs : Ready s) (hnever : .never ∉ s.waitReplies)
    (hwords : WordsAt s.cmd s.cpos (is.flatMap encode)) :
    ∃ n t, runSteps n s = .next t ∧ CommandsDone is s t := by
  induction is generalizing s with
  | nil => exact ⟨0, s, rfl, hi, hs, rfl, rfl, rfl⟩
  | cons i is ih =>
    rw [List.flatMap_cons] at hwords
    obtain ⟨u, hu⟩ := exec_next i s
    have hr : u.refused = none := (exec_cs_refused hi.1 hu).2.trans hs.1
    obtain ⟨m, later, hlater, hrun⟩ := runSteps_command hs (fetchCommand_of_wordsAt hwords.left) hu hr hnever
    obtain ⟨hinv, hready, hcs, hcpos, hcmd⟩ := commandsDone_completeCommand hi hs hu
    have hone : CommandsDone [i] s { completeCommand i u with waitReplies := later } := ⟨hinv, hready, hcs, hcpos, hcmd⟩
    obtain ⟨n, t, hrun', ht⟩ := ih hone.inv hone.ready hlater (by
      rw [hone.cmd, hone.cpos, List.flatMap_singleton]; exact hwords.right)
    exact ⟨m + n, t, (runSteps_add hrun).trans hrun', hone.cons ht⟩

/-- Settles O46: the machine completes the stream's commands one after another, and every step keeps the invariant. -/
theorem contractStreamsRunToTheirEnd : Obligations.ContractStreamsRunToTheirEnd := by
  intro is s hi hs hcs hnever hkeeps hwords
  obtain ⟨n, t, hrun, ht⟩ := runSteps_done is hi.1 hs hnever hwords
  exact ⟨n, t, hrun, runSteps_keeps everyStepKeepsTheInvariant hi hrun, ht.ready,
    by rw [ht.cs, hcs, csAfter_of_keepsContract hkeeps], ht.cpos⟩

end Sys2Proof.Machine
end
